-- ==== Sys2Proof/Word.lean ====
section
/-! DEFINITION. The words of the RLE codec core: the data byte, the beats of the four streams
(30_encoding.md R80) and the run record (10_state.md R19). Every value is unsigned (00_scope.md R11). -/

namespace Sys2Proof

/-- A data byte, a run's value, a run's length or a counter: 8 bits, unsigned (00_scope.md R8). -/
abbrev Byte := BitVec 8

/-- A beat of ENC_IN, format EIN, 9 bits (30_encoding.md R81). -/
abbrev EinWord := BitVec 9

/-- A beat of DEC_IN, format DIN, 17 bits (30_encoding.md R83). -/
abbrev DinWord := BitVec 17

/-- A beat of ENC_OUT as one word, format REC, 16 bits (30_encoding.md R82). -/
abbrev RecWord := BitVec 16

/-- A run: any pair in u8 × u8 (10_state.md R19; 90_conflicts.md C1). -/
structure Run where
  value  : Byte
  length : Byte
  deriving DecidableEq, Repr

end Sys2Proof
end

