-- ==== Sys2Proof/Syntax.lean ====
section
/-! DEFINITION. The instructions of the core: its four input events (30_encoding.md R86). The decoder's
micro-step DEC.EMIT has no encoding (R87), so it is no constructor; Machine/Decoder.lean gives it. -/

namespace Sys2Proof

/-- The four events, one constructor per row of spec/opcode_table.json. -/
inductive Instr where
  /-- `ENC.BYTE(b)`: one data byte for the encoder (40_encoder.md R110). -/
  | encByte (b : Byte)
  /-- `ENC.END`: the end of the encoder's input sequence (40_encoder.md R115). No operand: the payload
  of the beat is ignored (30_encoding.md R88). -/
  | encEnd
  /-- `DEC.RUN(v, l)`: one run record for the decoder (41_decoder.md R140). -/
  | decRun (v l : Byte)
  /-- `DEC.END`: the end of the decoder's run sequence (41_decoder.md R142). No operand. -/
  | decEnd
  deriving DecidableEq, Repr

/-- The beat formats that are decoded into events; the other two, REC and DOUT, are data
(30_encoding.md R80). -/
inductive Format where
  /-- The encoder's input beat (30_encoding.md R81). -/
  | ein
  /-- The decoder's input beat (30_encoding.md R83). -/
  | din
  deriving DecidableEq, Repr

/-- One input beat: a word of ENC_IN or a word of DEC_IN. -/
inductive Beat where
  | ein (w : EinWord)
  | din (w : DinWord)
  deriving DecidableEq, Repr

end Sys2Proof
end

