-- ==== Sys2Proof/WellFormed.lean ====
section
/-! DEFINITION. What is well formed: an instruction (every one is, 30_encoding.md R88), a raw beat of a
format, a call of a unit (00_scope.md R14), a container (20_memory.md R60). -/

namespace Sys2Proof

/-- Is the instruction well formed? Every operand is used at its own width (30_encoding.md R85) and every
operand value is legal (R88, R89), so the types already say all there is to check. -/
def Instr.wf : Instr → Bool
  | .encByte _ => true
  | .encEnd => true
  | .decRun _ _ => true
  | .decEnd => true

/-- The stream an instruction arrives on: ENC_IN or DEC_IN (20_memory.md R52). -/
def Instr.format : Instr → Format
  | .encByte _ => .ein
  | .encEnd => .ein
  | .decRun _ _ => .din
  | .decEnd => .din

/-- The width in bits of a beat of the format (30_encoding.md R81, R83). -/
def Format.width : Format → Nat
  | .ein => 9
  | .din => 17

/-- Does the number fit a beat of the format: is it one of the 512 or 131072 patterns (R88)? -/
def Format.fits (f : Format) (w : Nat) : Bool := decide (w < 2 ^ f.width)

/-- Is the list one call of the encoder: zero or more `ENC.BYTE`, then one `ENC.END` (00_scope.md R14)? -/
def isEncCall : List Instr → Bool
  | [] => false
  | [.encEnd] => true
  | .encByte _ :: rest => isEncCall rest
  | _ :: _ => false

/-- Is the list one call of the decoder: zero or more `DEC.RUN`, then one `DEC.END` (00_scope.md R14)? -/
def isDecCall : List Instr → Bool
  | [] => false
  | [.decEnd] => true
  | .decRun _ _ :: rest => isDecCall rest
  | _ :: _ => false

/-- Is the byte list a container: a whole number of 2-byte records (20_memory.md R60)? -/
def isContainer (bs : List Byte) : Bool := bs.length % 2 == 0

end Sys2Proof
end

