-- ==== Sys2Proof/Decode.lean ====
section
/-! DEFINITION. Decoding a beat into an event, and encoding an event as a beat (30_encoding.md R81, R83,
R86, R92), the run record as a word (20_memory.md R59), and the raw numbering of opcode_table.json. -/

namespace Sys2Proof

/-! ## The fields of the beats -/

/-- Bit 8 of an EIN beat: the end marker (30_encoding.md R81). -/
def einEnd (w : EinWord) : Bool := w.getLsbD 8

/-- Bits 7..0 of an EIN beat: the data byte (30_encoding.md R81). -/
def einData (w : EinWord) : Byte := w.extractLsb' 0 8

/-- Bit 16 of a DIN beat: the end marker (30_encoding.md R83). -/
def dinEnd (w : DinWord) : Bool := w.getLsbD 16

/-- Bits 15..8 of a DIN beat: the run's value (30_encoding.md R83). -/
def dinValue (w : DinWord) : Byte := w.extractLsb' 8 8

/-- Bits 7..0 of a DIN beat: the run's length (30_encoding.md R83). -/
def dinLength (w : DinWord) : Byte := w.extractLsb' 0 8

/-! ## Decoding: total, by the end bit alone (30_encoding.md R86, R88) -/

/-- The event of an EIN beat. -/
def decodeEin (w : EinWord) : Instr :=
  if einEnd w then .encEnd else .encByte (einData w)

/-- The event of a DIN beat. -/
def decodeDin (w : DinWord) : Instr :=
  if dinEnd w then .decEnd else .decRun (dinValue w) (dinLength w)

/-- The event of a beat. Every beat has one (30_encoding.md R88). -/
def decode : Beat → Instr
  | .ein w => decodeEin w
  | .din w => decodeDin w

/-- Why a raw number is no beat. No beat of the core is ever refused (30_encoding.md R88); these name
what cannot be a beat at all (log 14). -/
inductive DecodeError where
  /-- The number has a bit set above the beat's width. -/
  | widerThanBeat (f : Format) (w : Nat)
  /-- No format of the event map has a beat that takes this many bits in whole bytes. -/
  | noFormat (nbits : Nat)
  deriving DecidableEq, Repr

/-- The beat a raw number stands for, where it fits the format. -/
def rawBeat (f : Format) (w : Nat) : Except DecodeError Beat :=
  if f.fits w then
    match f with
    | .ein => .ok (.ein (BitVec.ofNat 9 w))
    | .din => .ok (.din (BitVec.ofNat 17 w))
  else .error (.widerThanBeat f w)

/-- The event of a raw number read as a beat of the format; refused by name where it does not fit. -/
def decodeRaw (f : Format) (w : Nat) : Except DecodeError Instr :=
  match rawBeat f w with
  | .ok b => .ok (decode b)
  | .error e => .error e

/-! ## Encoding (30_encoding.md R92) -/

/-- The EIN beat of a data byte: bit 8 is 0. -/
def einByte (b : Byte) : EinWord := b.setWidth 9

/-- The EIN beat of the end marker, payload 0 as R88 asks of a host. -/
def einEndBeat : EinWord := 0x100

/-- The DIN beat of a run record: bit 16 is 0, bits 15..0 are the record's word (30_encoding.md R83). -/
def dinRun (v l : Byte) : DinWord := (v ++ l).setWidth 17

/-- The DIN beat of the end marker, payload 0 as R88 asks of a host. -/
def dinEndBeat : DinWord := 0x10000

/-- The beat of an event. -/
def encode : Instr → Beat
  | .encByte b => .ein (einByte b)
  | .encEnd => .ein einEndBeat
  | .decRun v l => .din (dinRun v l)
  | .decEnd => .din dinEndBeat

/-! ## The run record as a word (20_memory.md R59) -/

/-- The REC word of a run: value in bits 15..8, length in bits 7..0. -/
def recWord (r : Run) : RecWord := (r.value ++ r.length).setWidth 16

/-- The run of a REC word. -/
def recOfWord (w : RecWord) : Run := { value := w.extractLsb' 8 8, length := w.extractLsb' 0 8 }

/-! ## The raw numbering of opcode_table.json -/

/-- The format whose beat takes `nbits` bits in whole bytes: 9 bits are two bytes, 17 bits are three
(log 14). A count given without rounding is read the same way. -/
def formatOfBits (nbits : Nat) : Option Format :=
  if 9 ≤ nbits ∧ nbits ≤ 16 then some .ein
  else if 17 ≤ nbits ∧ nbits ≤ 32 then some .din
  else none

/-- The beat of a table word: bit 0 of `w` is bit 0 of the beat; refused by name. -/
def tableBeat (nbits w : Nat) : Except DecodeError Beat :=
  match formatOfBits nbits with
  | some f => rawBeat f w
  | none => .error (.noFormat nbits)

/-- The instruction the decoder reads from a table word, none where it refuses. -/
def decodeTableWord (nbits w : Nat) : Option Instr :=
  match tableBeat nbits w with
  | .ok b => some (decode b)
  | .error _ => none

end Sys2Proof
end

