-- ==== Sys2Proof/Config.lean ====
section
/-! DEFINITION. What is fixed for an instance of the core: the constants of 00_scope.md R8, the one
open parameter of R9, and the free values the spec leaves open. -/

namespace Sys2Proof

/-- The configuration of an instance. It is a constant of the instance, not state (00_scope.md R9); the
machine carries it in State because exec has no other argument (log 1, DESIGN CHOICE). -/
structure Config where
  /-- `COMPAT_ZERO_RUNS`: true emits zero-length records, false suppresses them (00_scope.md R9). -/
  compatZeroRuns : Bool
  deriving DecidableEq, Repr

/-- The setting to take where one value must be picked (92_eei_decisions.md D9 (iii)). -/
def Config.reference : Config := { compatZeroRuns := true }

/-- `MAX_RUN`: the counter value that forces a flush (00_scope.md R8). -/
abbrev Config.maxRun : Nat := 255

/-- `CNT_INIT`: the counter when a run starts (00_scope.md R8). -/
abbrev Config.cntInit : Byte := 1#8

/-- `CNT_AFTER_OVF`: the counter after the forced flush (00_scope.md R8). -/
abbrev Config.cntAfterOvf : Byte := 0#8

/-- The free values: bytes the spec leaves unspecified, one for each index. It has no body, so nothing
can be proved of a value of it. Used for the registers an rst cycle leaves unspecified (log 3) and for
the counter in a case the spec states no result for (log 4). -/
opaque Config.freeByte : Nat → Byte

end Sys2Proof
end

