-- ==== Sys2Proof/Machine/State.lean ====
section
/-! DEFINITION. The machine's state as plain data: the six registers (10_state.md R20), the four streams
(20_memory.md R52), the strobes of the step just taken (10_state.md R30), the configuration (00_scope.md
R9), the host's coming pin values (20_memory.md R53), and the machine right after reset (10_state.md R36). -/

namespace Sys2Proof.Machine

/-- `ENC.PH`, the phase (10_state.md R21). -/
inductive Phase where
  /-- No byte of the present call has been accepted. -/
  | idle
  /-- At least one has, and `ENC.CUR`, `ENC.CNT` describe the run being accumulated. -/
  | run
  deriving DecidableEq, Repr

/-- The encoder's status outputs of one step (40_encoder.md R121). At most one of the two strobes is
asserted in a step (10_state.md R30). -/
inductive EncStatus where
  /-- `enc_done`: an `ENC.END` completed a non-empty call. -/
  | done
  /-- `enc_err_empty`: an `ENC.END` raised `EmptyInputError`. -/
  | errEmpty
  deriving DecidableEq, Repr

/-- The encoder unit. -/
structure Encoder where
  /-- `ENC.PH` (10_state.md R21). -/
  ph : Phase
  /-- `ENC.CUR`, the current run value (10_state.md R22). -/
  cur : Byte
  /-- `ENC.CNT`, the internal counter (10_state.md R23). -/
  cnt : Byte
  /-- `ENC.ERR`, the sticky error flag; also the level output `enc_err` (10_state.md R25). -/
  err : Bool
  /-- `ENC_IN`: the beats the host has yet to hand over, the head next (20_memory.md R51; log 5). -/
  input : List EinWord
  /-- `ENC_OUT`: the records handed to the host, oldest first (20_memory.md R51; log 5). -/
  output : List Run
  /-- The strobes `enc_done` and `enc_err_empty` of the step just taken (10_state.md R30; log 8). -/
  status : Option EncStatus
  deriving DecidableEq, Repr

/-- The decoder unit. -/
structure Decoder where
  /-- `DEC.VAL`, the value being expanded (10_state.md R26). -/
  val : Byte
  /-- `DEC.REM`, the copies still to emit; 0 is idle (10_state.md R27). -/
  rem : Byte
  /-- `DEC_IN`: the beats the host has yet to hand over, the head next (20_memory.md R51; log 5). -/
  input : List DinWord
  /-- `DEC_OUT`: the bytes handed to the host, oldest first (20_memory.md R51; log 5). -/
  output : List Byte
  /-- The strobe `dec_done` of the step just taken (10_state.md R30; log 8). -/
  done : Bool
  deriving DecidableEq, Repr

/-- What the host drives in one clock cycle besides the payloads (20_memory.md R53). A payload is the
head of the unit's input stream, so it is stable while it waits (R54). -/
structure Pins where
  /-- `rst`: synchronous reset, active high. -/
  rst : Bool
  /-- `enc_in_valid`: the host offers the head of ENC_IN; without a beat there it offers nothing. -/
  encInValid : Bool
  /-- `enc_out_ready`: the host can take a record. -/
  encOutReady : Bool
  /-- `dec_in_valid`: the host offers the head of DEC_IN; without a beat there it offers nothing. -/
  decInValid : Bool
  /-- `dec_out_ready`: the host can take a byte. -/
  decOutReady : Bool
  deriving DecidableEq, Repr

/-- A host that offers every beat it has and takes every output, without reset. -/
def Pins.eager : Pins :=
  { rst := false, encInValid := true, encOutReady := true, decInValid := true, decOutReady := true }

/-- What the host drives in the coming clock cycles, for all time: cycle by cycle first, then the same pins for
ever. So a host may refuse an output, or withhold a beat, for ever (70_reset_and_hazards.md R236; log 6). -/
structure Plan where
  /-- The next cycles, the coming one first. -/
  coming : List Pins
  /-- Every cycle after those. -/
  held : Pins
  deriving DecidableEq, Repr

/-- A host that offers every beat it has and takes every output from now on. -/
def Plan.eager : Plan := { coming := [], held := Pins.eager }

/-- The pins of the coming cycle. -/
def Plan.head (p : Plan) : Pins := p.coming.headD p.held

/-- The plan once the coming cycle has passed. -/
def Plan.tail (p : Plan) : Plan := { p with coming := p.coming.tail }

/-- The plan with one more cycle before it. -/
def Plan.cons (x : Pins) (p : Plan) : Plan := { p with coming := x :: p.coming }

/-- The pins of the cycle `k` cycles after the coming one. -/
def Plan.pinsAt (p : Plan) (k : Nat) : Pins := p.coming.getD k p.held

/-- The whole machine: the two units, which share nothing (00_scope.md R5), and their environment. -/
structure State where
  /-- The configuration of the instance; no step writes it (00_scope.md R9; log 1). -/
  cfg : Config
  /-- The encoder unit. -/
  enc : Encoder
  /-- The decoder unit. -/
  dec : Decoder
  /-- The host's pin values in the coming clock cycles, for all time (log 6). -/
  plan : Plan
  /-- The model's own counter: the index of the next free value (log 3). -/
  freeIdx : Nat
  deriving DecidableEq, Repr

/-- The pin values of the coming clock edge. -/
def State.pins (s : State) : Pins := s.plan.head

/-- Why the machine stops with a fault: never. The one error of the core, `EmptyInputError`, is a
next state, because 60_exceptions.md R195 describes its whole effect and R196 has the encoder go on (log 9).
Nobody raises a fault; that is safe, since nothing the spec describes stops the machine. -/
inductive Fault where
  deriving DecidableEq, Repr

/-- Why the machine has no meaning for an instruction. -/
inductive Refusal where
  /-- Raised by an arm of exec whose instruction is not modelled; no arm is. Safe: the machine stops. -/
  | notModelled (mnemonic : String)
  deriving DecidableEq, Repr

/-- What a meaning answers. -/
abbrev Result := Host.Outcome State Fault Refusal

/-- The machine right after reset, for a configuration (10_state.md R36): encoder `IDLE` with `ERR = 0`,
decoder idle, all strobes 0. `CUR`, `CNT` and `VAL` are unspecified there and never read before they are
written; the model names 0 for them (log 2, DESIGN CHOICE). No beat waits and nothing has been emitted
(log 5), and the host is the eager one (log 6). -/
def State.resetWith (cfg : Config) : State :=
  { cfg := cfg
    enc := { ph := .idle, cur := 0#8, cnt := 0#8, err := false, input := [], output := [], status := none }
    dec := { val := 0#8, rem := 0#8, input := [], output := [], done := false }
    plan := Plan.eager
    freeIdx := 0 }

/-- The machine right after reset, with the setting 92_eei_decisions.md D9 (iii) names (log 1). -/
def State.reset : State := State.resetWith Config.reference

end Sys2Proof.Machine
end

