-- ==== Sys2Proof/Machine/Flags.lean ====
section
/-! DEFINITION. The only stored flag, `ENC.ERR`, and the three strobes (10_state.md R30). There are no
condition codes. A step asserts a strobe or leaves it 0, so each unit's step sets its strobes. -/

namespace Sys2Proof.Machine

/-- `Strobe(x)` for the encoder: the strobes of this step, none for 0 on both (40_encoder.md R121). -/
def encStrobe (st : Option EncStatus) (s : State) : State :=
  { s with enc := { s.enc with status := st } }

/-- `Strobe(dec_done)`, or its 0, for this step. -/
def decStrobe (d : Bool) (s : State) : State :=
  { s with dec := { s.dec with done := d } }

/-- `ENC.ERR <- v` (10_state.md R25). -/
def setErr (v : Bool) (s : State) : State :=
  { s with enc := { s.enc with err := v } }

/-- The strobe output `enc_done` of the step just taken. -/
def encDone (s : State) : Bool := s.enc.status == some .done

/-- The strobe output `enc_err_empty` of the step just taken. -/
def encErrEmpty (s : State) : Bool := s.enc.status == some .errEmpty

/-- The strobe output `dec_done` of the step just taken. -/
def decDone (s : State) : Bool := s.dec.done

end Sys2Proof.Machine
end

