-- ==== Sys2Proof/Machine/Operands.lean ====
section
/-! DEFINITION. What is computed from operands and registers: the run detector (40_encoder.md R119), the
bounded counter (R118), the emission gate (R120), and the decoder's down-counter (41_decoder.md R144).
Fields are used as they are, unsigned, at their own width (30_encoding.md R85). -/

namespace Sys2Proof.Machine

/-- The result of the counter's increment (40_encoder.md R118). -/
inductive Inc where
  /-- `Continue(n + 1)`. -/
  | continueWith (n : Byte)
  /-- `Overflow`: the increment would make the counter `MAX_RUN`. -/
  | overflow
  /-- The counter holds 255 already, where R118 states no result (log 4). -/
  | unstated
  deriving DecidableEq, Repr

/-- The increment of the counter, on integers (40_encoder.md R118). -/
def inc (n : Byte) : Inc :=
  if n.toNat + 1 < Config.maxRun then .continueWith (BitVec.ofNat 8 (n.toNat + 1))
  else if n.toNat + 1 = Config.maxRun then .overflow
  else .unstated

/-- The run detector: all 8 bits equal (40_encoder.md R119). -/
def runDetector (b cur : Byte) : Bool := b == cur

/-- The emission gate of the mismatch and end flushes (40_encoder.md R120). -/
def emitOk (compat : Bool) (n : Byte) : Bool := n != 0#8 || compat

/-- The record of a mismatch or end flush, where the gate is open (40_encoder.md R120). -/
def flushRecord (compat : Bool) (cur n : Byte) : Option Run :=
  if emitOk compat n then some { value := cur, length := n } else none

/-- The record of the overflow flush, which is not gated: its length is the constant 255
(40_encoder.md R113). -/
def overflowRecord (cur : Byte) : Run := { value := cur, length := BitVec.ofNat 8 Config.maxRun }

/-- The down-counter's step, taken only when `rem ≠ 0` (41_decoder.md R144). -/
def countDown (rem : Byte) : Byte := rem - 1#8

end Sys2Proof.Machine
end

