-- ==== Sys2Proof/Machine/Ops.lean ====
section
/-! DEFINITION. The operations the meanings are made of: taking a beat, pushing an output, writing the
registers, drawing a free value, raising `EmptyInputError` (60_exceptions.md R195), reset (70_reset_and_hazards.md
R220). There is no return from the error to model: nothing was saved and there is no return instruction
(60_exceptions.md R196). -/

namespace Sys2Proof.Machine

/-! ## Streams (20_memory.md R51, R69) -/

/-- Take the input event: the beat at the head of ENC_IN is removed by the step that accepts it. -/
def encTake (s : State) : State :=
  { s with enc := { s.enc with input := s.enc.input.tail } }

/-- Take the beat at the head of DEC_IN. -/
def decTake (s : State) : State :=
  { s with dec := { s.dec with input := s.dec.input.tail } }

/-- `Push(ENC_OUT, r)`, where there is a record. -/
def encPush (r : Option Run) (s : State) : State :=
  { s with enc := { s.enc with output := s.enc.output ++ r.toList } }

/-- `Push(DEC_OUT, b)`. -/
def decPush (b : Byte) (s : State) : State :=
  { s with dec := { s.dec with output := s.dec.output ++ [b] } }

/-- Accept an encoder event: take its beat, push its record if any, set the strobes
(40_encoder.md R121). -/
def encAccept (r : Option Run) (st : Option EncStatus) (s : State) : State :=
  encStrobe st (encPush r (encTake s))

/-- Accept a decoder event: take its beat, set the strobe (41_decoder.md R143). -/
def decAccept (d : Bool) (s : State) : State :=
  decStrobe d (decTake s)

/-! ## Registers -/

/-- `ENC.PH <- RUN; ENC.CUR <- cur; ENC.CNT <- cnt`. -/
def encSetRun (cur cnt : Byte) (s : State) : State :=
  { s with enc := { s.enc with ph := .run, cur := cur, cnt := cnt } }

/-- `ENC.CNT <- cnt`. -/
def encSetCnt (cnt : Byte) (s : State) : State :=
  { s with enc := { s.enc with cnt := cnt } }

/-- `ENC.PH <- IDLE`; `ENC.CUR` and `ENC.CNT` keep their contents (40_encoder.md R116). -/
def encSetIdle (s : State) : State :=
  { s with enc := { s.enc with ph := .idle } }

/-- `DEC.VAL <- v; DEC.REM <- l`. -/
def decLoad (v l : Byte) (s : State) : State :=
  { s with dec := { s.dec with val := v, rem := l } }

/-- `DEC.REM <- l`. -/
def decSetRem (l : Byte) (s : State) : State :=
  { s with dec := { s.dec with rem := l } }

/-! ## Free values (log 3, log 4) -/

/-- The free value that comes next. -/
def freeValue (s : State) : Byte := Config.freeByte s.freeIdx

/-- Move on to the next free value. -/
def freeNext (s : State) : State := { s with freeIdx := s.freeIdx + 1 }

/-! ## The one error -/

/-- `raise EmptyInputError` in the step that accepts the offending `ENC.END` (60_exceptions.md R195): no record,
no `enc_done`, the strobe `enc_err_empty`, `ENC.ERR <- 1`; phase, `CUR`, `CNT` and the decoder untouched. -/
def raiseEmptyInput (s : State) : State :=
  setErr true (encAccept none (some .errEmpty) s)

/-! ## Reset -/

/-- A clock edge with `rst = 1` (70_reset_and_hazards.md R220): `PH <- IDLE`, `ERR <- 0`, `REM <- 0`; `CUR`, `CNT`
and `VAL` are left unspecified, so each takes a free value (log 3); nothing is taken or pushed and no
strobe is asserted. -/
def resetUnits (s : State) : State :=
  { s with
    enc := { s.enc with ph := .idle, cur := Config.freeByte s.freeIdx, cnt := Config.freeByte (s.freeIdx + 1),
                        err := false, status := none }
    dec := { s.dec with val := Config.freeByte (s.freeIdx + 2), rem := 0#8, done := false }
    freeIdx := s.freeIdx + 3 }

/-! ## Sequencing -/

/-- Go on from a next state; a fault or a refusal stands. -/
def andThen (o : Result) (f : State → Result) : Result :=
  match o with
  | .next s => f s
  | .fault r => .fault r
  | .refused r => .refused r

end Sys2Proof.Machine
end

