-- ==== Sys2Proof/Machine/Decoder.lean ====
section
/-! DEFINITION. The decoder's events, `DEC.RUN` and `DEC.END`, and its micro-step `DEC.EMIT`
(41_decoder.md). -/

namespace Sys2Proof.Machine

/-- A decoder event that is not enabled waits at the head of DEC_IN (41_decoder.md R140; 20_memory.md R56):
nothing is taken, nothing changes, no strobe (log 10). -/
def decWait (s : State) : State := decStrobe false s

/-- The meaning of `DEC.RUN(v, l)`: enabled when `REM = 0`, it loads the run (41_decoder.md R140). -/
def execDecRun (v l : Byte) (s : State) : Result :=
  if s.dec.rem = 0#8 then .next (decLoad v l (decAccept false s)) else .next (decWait s)

/-- The meaning of `DEC.END`: enabled when `REM = 0`, it strobes `dec_done` (41_decoder.md R142). -/
def execDecEnd (s : State) : Result :=
  if s.dec.rem = 0#8 then .next (decAccept true s) else .next (decWait s)

/-- The micro-step `DEC.EMIT`: enabled when `REM ≠ 0`, it pushes `VAL` and counts down
(41_decoder.md R141; log 11). -/
def decEmit (s : State) : State :=
  if s.dec.rem = 0#8 then decWait s
  else decStrobe false (decSetRem (countDown s.dec.rem) (decPush s.dec.val s))

end Sys2Proof.Machine
end

