-- ==== Sys2Proof/Machine/Encoder.lean ====
section
/-! DEFINITION. The encoder's events, `ENC.BYTE` and `ENC.END` (40_encoder.md). All reads of a step see the
values from before it (00_scope.md R12). -/

namespace Sys2Proof.Machine

/-- `ENC.BYTE` case FIRST: the byte starts the first run of the call (40_encoder.md R111). -/
def encByteFirst (b : Byte) (s : State) : State :=
  encSetRun b Config.cntInit (encAccept none none s)

/-- `ENC.BYTE` case MATCH: the byte extends the run to the count `m` (40_encoder.md R112). -/
def encByteMatch (m : Byte) (s : State) : State :=
  encSetCnt m (encAccept none none s)

/-- `ENC.BYTE` case OVERFLOW: the record `(CUR, 255)` goes out and the counter restarts at 0
(40_encoder.md R113; the byte is counted in the record and nowhere else, 90_conflicts.md C2). -/
def encByteOverflow (s : State) : State :=
  encSetCnt Config.cntAfterOvf (encAccept (some (overflowRecord s.enc.cur)) none s)

/-- `ENC.BYTE` case MISMATCH: the record `(CUR, CNT)` goes out if the gate allows, and a new run starts
(40_encoder.md R114). -/
def encByteMismatch (b : Byte) (s : State) : State :=
  encSetRun b Config.cntInit (encAccept (flushRecord s.cfg.compatZeroRuns s.enc.cur s.enc.cnt) none s)

/-- `ENC.BYTE` with a matching byte and `CNT = 255`, which no run reaches (40_encoder.md R122). The byte
matches, so by R121 nothing is emitted and the phase and value stay; the new count would be 256, which
fits no register, so `CNT` takes a free value (log 4, DESIGN CHOICE). -/
def encByteUnstated (s : State) : State :=
  freeNext (encSetCnt (freeValue s) (encAccept none none s))

/-- The meaning of `ENC.BYTE(b)` (40_encoder.md R110). -/
def execEncByte (b : Byte) (s : State) : Result :=
  match s.enc.ph with
  | .idle => .next (encByteFirst b s)
  | .run =>
    if runDetector b s.enc.cur then
      match inc s.enc.cnt with
      | .continueWith m => .next (encByteMatch m s)
      | .overflow => .next (encByteOverflow s)
      | .unstated => .next (encByteUnstated s)
    else .next (encByteMismatch b s)

/-- `ENC.END` case FLUSH: the final record goes out if the gate allows, with `enc_done`
(40_encoder.md R116). -/
def encEndFlush (s : State) : State :=
  encSetIdle (encAccept (flushRecord s.cfg.compatZeroRuns s.enc.cur s.enc.cnt) (some .done) s)

/-- The meaning of `ENC.END` (40_encoder.md R115): FLUSH in `RUN` (R116), EMPTY in `IDLE` (R117). -/
def execEncEnd (s : State) : Result :=
  match s.enc.ph with
  | .run => .next (encEndFlush s)
  | .idle => .next (raiseEmptyInput s)

end Sys2Proof.Machine
end

