-- ==== Sys2Proof/Machine/Cycle.lean ====
section
/-! DEFINITION. One clock cycle (20_memory.md R54 to R57; 70_reset_and_hazards.md R220): the host's pins are sampled, reset
wins, and otherwise each unit takes its enabled step, both in the same cycle (60_exceptions.md R194, R203). The
units share nothing, so the order in which the two steps are computed cannot be seen (log 7). -/

namespace Sys2Proof.Machine

/-- The start of a cycle: the pins of this cycle are used up and no strobe is asserted yet (10_state.md R30). -/
def beginCycle (s : State) : State :=
  decStrobe false (encStrobe none { s with plan := s.plan.tail })

/-- The beat the host offers on ENC_IN under the pins: the head of the stream while `enc_in_valid`
(20_memory.md R53, R69). -/
def encOffered (p : Pins) (s : State) : Option EinWord :=
  if p.encInValid then s.enc.input.head? else none

/-- The beat the host offers on DEC_IN under the pins. -/
def decOffered (p : Pins) (s : State) : Option DinWord :=
  if p.decInValid then s.dec.input.head? else none

/-- The encoder in one cycle: a step exactly when a beat is offered and the host can take a record
(20_memory.md R55). -/
def encCycle (p : Pins) (s : State) : Result :=
  match encOffered p s with
  | some w => if p.encOutReady then exec (decode (.ein w)) s else .next s
  | none => .next s

/-- The decoder in one cycle: `DEC.EMIT` while `REM ≠ 0` and the host can take a byte, an accept step
while `REM = 0` and a beat is offered (20_memory.md R56). -/
def decCycle (p : Pins) (s : State) : Result :=
  if s.dec.rem = 0#8 then
    match decOffered p s with
    | some w => exec (decode (.din w)) s
    | none => .next s
  else if p.decOutReady then .next (decEmit s)
  else .next s

/-- One clock cycle. -/
def cycle (s : State) : Result :=
  if s.pins.rst then .next (resetUnits (beginCycle s))
  else andThen (encCycle s.pins (beginCycle s)) (decCycle s.pins)

/-- Pins under which the encoder alone may step. -/
def Pins.encOnly : Pins :=
  { rst := false, encInValid := true, encOutReady := true, decInValid := false, decOutReady := false }

/-- Pins under which the decoder alone may accept a beat. -/
def Pins.decOnly : Pins :=
  { rst := false, encInValid := false, encOutReady := false, decInValid := true, decOutReady := false }

/-- The host puts a beat at the head of its stream and lets the coming cycle take that beat and nothing
else; a DIN beat is accepted only at `REM = 0`, so the decoder is set idle for it (log 12). -/
def placeBeat (b : Beat) (s : State) : State :=
  match b with
  | .ein w =>
    { s with enc := { s.enc with input := w :: s.enc.input }, plan := s.plan.cons Pins.encOnly }
  | .din w =>
    { s with dec := { s.dec with input := w :: s.dec.input, rem := 0#8 }, plan := s.plan.cons Pins.decOnly }

end Sys2Proof.Machine
end

