-- ==== Sys2Proof/Machine/Step.lean ====
section
/-! DEFINITION. The step of the machine, one clock cycle, and the host's way to place one instruction as
the next to run. -/

namespace Sys2Proof.Machine

/-- One step: one clock cycle (20_memory.md R53). -/
def step (s : State) : Host.Outcome State Fault Refusal := cycle s

/-- The state with a table word placed as the next instruction (log 12); a word that is no beat places
nothing. -/
def State.withFetchWord (s : State) (nbits w : Nat) : State :=
  match tableBeat nbits w with
  | .ok b => placeBeat b s
  | .error _ => s

end Sys2Proof.Machine
end

