-- ==== Sys2Proof/Machine/Ports.lean ====
section
/-! DEFINITION. The output pins of the core in a clock cycle, as the port equations give them from the
state before the edge and the host's pins (20_memory.md R53, R55, R56, R57). They are computed, never
stored, and written apart from the step, so that the two can be proved to agree. -/

namespace Sys2Proof.Machine

/-- The output pins (20_memory.md R53). The payload of `ENC_OUT` is an Option, because the spec gives it only
when `enc_out_valid` is 1 (R55; log 19). -/
structure OutPins where
  /-- `enc_in_ready`. -/
  encInReady : Bool
  /-- `enc_out_valid` with `enc_out_value` and `enc_out_length`: a record when valid, none when not. -/
  encOut : Option Run
  /-- `enc_done`. -/
  encDone : Bool
  /-- `enc_err_empty`. -/
  encErrEmpty : Bool
  /-- `enc_err`, the level of `ENC.ERR`. -/
  encErr : Bool
  /-- `dec_in_ready`. -/
  decInReady : Bool
  /-- `dec_out_valid`. -/
  decOutValid : Bool
  /-- `dec_out_data`; none under reset, where R56 gives no value (log 19). -/
  decOutData : Option Byte
  /-- `dec_done`. -/
  decDone : Bool
  deriving DecidableEq, Repr

/-- `enc_emit`: the record the encoder's state and an EIN beat give, if any (20_memory.md R55, from
40_encoder.md R121). -/
def encEmit (compat : Bool) (e : Encoder) (w : EinWord) : Option Run :=
  match e.ph with
  | .idle => none
  | .run =>
    if einEnd w then flushRecord compat e.cur e.cnt
    else if einData w = e.cur then
      if e.cnt.toNat + 1 = Config.maxRun then some (overflowRecord e.cur) else none
    else flushRecord compat e.cur e.cnt

/-- The beat on ENC_IN in this cycle: `enc_in_valid` with its payload. -/
def encInBeat (s : State) : Option EinWord := encOffered s.pins s

/-- The beat on DEC_IN in this cycle: `dec_in_valid` with its payload. -/
def decInBeat (s : State) : Option DinWord := decOffered s.pins s

/-- The record on ENC_OUT in this cycle, valid without regard to `enc_out_ready` (20_memory.md R54, R55). -/
def encOutBeat (s : State) : Option Run :=
  match encInBeat s with
  | some w => encEmit s.cfg.compatZeroRuns s.enc w
  | none => none

/-- Is an ENC_IN beat transferred at this edge: valid, ready, no reset (20_memory.md R54, R55)? -/
def encTransfer (s : State) : Bool :=
  !s.pins.rst && (encInBeat s).isSome && s.pins.encOutReady

/-- Is a DEC_IN beat transferred at this edge (20_memory.md R54, R56)? -/
def decTransfer (s : State) : Bool :=
  !s.pins.rst && (decInBeat s).isSome && (s.dec.rem == 0#8)

/-- Is a DEC_OUT byte transferred at this edge (20_memory.md R54, R56)? -/
def decEmits (s : State) : Bool :=
  !s.pins.rst && (s.dec.rem != 0#8) && s.pins.decOutReady

/-- Is an end marker accepted by the encoder at this edge? -/
def encTakesEnd (s : State) : Bool :=
  encTransfer s && ((encInBeat s).map einEnd).getD false

/-- Is an end marker accepted by the decoder at this edge? -/
def decTakesEnd (s : State) : Bool :=
  decTransfer s && ((decInBeat s).map dinEnd).getD false

/-- The output pins in this cycle. While `rst = 1` every valid, ready and strobe is 0 (20_memory.md R54;
10_state.md R36); `enc_err` stays the level of `ENC.ERR` (log 20). -/
def ports (s : State) : OutPins :=
  { encInReady := !s.pins.rst && s.pins.encOutReady
    encOut := if s.pins.rst then none else encOutBeat s
    encDone := encTakesEnd s && (s.enc.ph == .run)
    encErrEmpty := encTakesEnd s && (s.enc.ph == .idle)
    encErr := s.enc.err
    decInReady := !s.pins.rst && (s.dec.rem == 0#8)
    decOutValid := !s.pins.rst && (s.dec.rem != 0#8)
    decOutData := if s.pins.rst then none else some s.dec.val
    decDone := decTakesEnd s }

end Sys2Proof.Machine
end

