-- ==== Sys2Proof/Machine/Abstract.lean ====
section
/-! DEFINITION. The spec's own step functions on abstract states: `enc_step` on `EncState` (10_state.md R24,
40_encoder.md R121), `dec_accept` and `dec_emit` on `DecState` (10_state.md R28, 41_decoder.md R143). They
are written from those rules alone, apart from the register-level meanings, so that a refinement between
the two says something. -/

namespace Sys2Proof.Machine

/-! ## Events -/

/-- An event of the encoder. -/
inductive EncEvent where
  | byte (b : Byte)
  | finish
  deriving DecidableEq, Repr

/-- An event of the decoder. -/
inductive DecEvent where
  | run (r : Run)
  | finish
  deriving DecidableEq, Repr

/-- The instruction of an encoder event. -/
def EncEvent.instr : EncEvent → Instr
  | .byte b => .encByte b
  | .finish => .encEnd

/-- The instruction of a decoder event. -/
def DecEvent.instr : DecEvent → Instr
  | .run r => .decRun r.value r.length
  | .finish => .decEnd

/-- The event an EIN beat is (30_encoding.md R81). -/
def einEvent (w : EinWord) : EncEvent := if einEnd w then .finish else .byte (einData w)

/-- The event a DIN beat is (30_encoding.md R83). -/
def dinEvent (w : DinWord) : DecEvent :=
  if dinEnd w then .finish else .run { value := dinValue w, length := dinLength w }

/-- The beat of an encoder event (30_encoding.md R92). -/
def EncEvent.beat : EncEvent → EinWord
  | .byte b => einByte b
  | .finish => einEndBeat

/-- The beat of a decoder event (30_encoding.md R92). -/
def DecEvent.beat : DecEvent → DinWord
  | .run r => dinRun r.value r.length
  | .finish => dinEndBeat

/-! ## The encoder -/

/-- `EncState = IDLE | RUN(cur : u8, cnt : 0..254)` (10_state.md R24). -/
inductive EncState where
  | idle
  | run (cur : Byte) (cnt : Fin 255)
  deriving DecidableEq, Repr

/-- What one step of the encoder gives (40_encoder.md R121). -/
structure EncOut where
  next   : EncState
  record : Option Run
  status : Option EncStatus
  deriving DecidableEq, Repr

/-- The record `(cur, cnt)` behind the emission gate (40_encoder.md R120, R121). -/
def gatedRecord (compat : Bool) (cur : Byte) (cnt : Fin 255) : Option Run :=
  if cnt.val ≠ 0 ∨ compat = true then some { value := cur, length := BitVec.ofNat 8 cnt.val } else none

/-- `enc_step(compat, s, ev)` (40_encoder.md R121). -/
def encStep (compat : Bool) : EncState → EncEvent → EncOut
  | .idle, .byte b => { next := .run b 1, record := none, status := none }
  | .run cur cnt, .byte b =>
    if b = cur then
      if h : cnt.val + 1 < 255 then { next := .run cur ⟨cnt.val + 1, h⟩, record := none, status := none }
      else { next := .run cur 0, record := some { value := cur, length := 255#8 }, status := none }
    else { next := .run b 1, record := gatedRecord compat cur cnt, status := none }
  | .run cur cnt, .finish => { next := .idle, record := gatedRecord compat cur cnt, status := some .done }
  | .idle, .finish => { next := .idle, record := none, status := some .errEmpty }

/-- The abstract state of the registers, where the counter is in its range (10_state.md R24). -/
def encAbs (e : Encoder) : Option EncState :=
  match e.ph with
  | .idle => some .idle
  | .run => if h : e.cnt.toNat < 255 then some (.run e.cur ⟨e.cnt.toNat, h⟩) else none

/-! ## The decoder -/

/-- `DecState = (val : u8, rem : 0..255)` (10_state.md R28). -/
structure DecState where
  val : Byte
  rem : Byte
  deriving DecidableEq, Repr

/-- What one step of the decoder gives (41_decoder.md R143). -/
structure DecOut where
  next : DecState
  byte : Option Byte
  done : Bool
  deriving DecidableEq, Repr

/-- `dec_accept`, enabled only when `rem = 0` (41_decoder.md R143). -/
def decAcceptStep (d : DecState) : DecEvent → Option DecOut
  | .run r => if d.rem = 0#8 then some { next := { val := r.value, rem := r.length }, byte := none, done := false } else none
  | .finish => if d.rem = 0#8 then some { next := d, byte := none, done := true } else none

/-- `dec_emit`, enabled only when `rem ≠ 0` (41_decoder.md R143). -/
def decEmitStep (d : DecState) : Option DecOut :=
  if d.rem = 0#8 then none
  else some { next := { val := d.val, rem := BitVec.ofNat 8 (d.rem.toNat - 1) }, byte := some d.val, done := false }

/-- The abstract state of the decoder's registers (10_state.md R28). -/
def decAbs (d : Decoder) : DecState := { val := d.val, rem := d.rem }

end Sys2Proof.Machine
end

