-- ==== Sys2Proof/Machine/Sequence.lean ====
section
/-! DEFINITION. The whole-sequence functions `encode` and `decode` (42_sequence_functions.md R160, R162), the closed form on
maximal stretches (R161), the listings of 30_encoding.md R93, and the container functions of a model of
the host (20_memory.md R70). -/

namespace Sys2Proof.Machine

/-! ## Listings (30_encoding.md R93) -/

/-- `REP n, b`. -/
def repEvents (n : Nat) (b : Byte) : List EncEvent := List.replicate n (.byte b)

/-- `SEQ d`: the events of the call `encode(d)` (42_sequence_functions.md R160). -/
def seqEvents (d : List Byte) : List EncEvent := d.map .byte ++ [.finish]

/-- `RUNS rs`: the events of the call `decode(rs)` (42_sequence_functions.md R162). -/
def runsEvents (rs : List Run) : List DecEvent := rs.map .run ++ [.finish]

/-- The beats of a listing for the encoder (30_encoding.md R92). -/
def encBeats (es : List EncEvent) : List EinWord := es.map EncEvent.beat

/-- The beats of a listing for the decoder (30_encoding.md R92). -/
def decBeats (es : List DecEvent) : List DinWord := es.map DecEvent.beat

/-! ## encode -/

/-- What a list of events makes the encoder do: the state it ends in, the records it emits in order, and
the strobes it asserts in order. -/
structure EncTrace where
  final    : EncState
  records  : List Run
  statuses : List EncStatus
  deriving DecidableEq, Repr

/-- `enc_step` applied to events in order (42_sequence_functions.md R160). -/
def encTrace (compat : Bool) : EncState → List EncEvent → EncTrace
  | a, [] => { final := a, records := [], statuses := [] }
  | a, e :: es =>
    let o := encStep compat a e
    let t := encTrace compat o.next es
    { final := t.final, records := o.record.toList ++ t.records, statuses := o.status.toList ++ t.statuses }

/-- How `encode` fails (60_exceptions.md R190). -/
inductive EncError where
  /-- `EmptyInputError`: the call had no byte. -/
  | emptyInputError
  deriving DecidableEq, Repr

/-- `encode(d)` (42_sequence_functions.md R160): the records of the call when its last step's status is `DONE`, the error
otherwise. -/
def encodeSeq (compat : Bool) (d : List Byte) : Except EncError (List Run) :=
  let t := encTrace compat .idle (seqEvents d)
  if t.statuses.getLast? = some .done then .ok t.records else .error .emptyInputError

/-! ## decode -/

/-- `decode(rs)` (42_sequence_functions.md R162). -/
def decodeSeq : List Run → List Byte
  | [] => []
  | r :: rs => List.replicate r.length.toNat r.value ++ decodeSeq rs

/-! ## encode on maximal stretches (42_sequence_functions.md R161) -/

/-- A maximal stretch of equal bytes: its byte and its size. -/
structure Stretch where
  byte : Byte
  size : Nat
  deriving DecidableEq, Repr

/-- Put one byte before a list of maximal stretches. -/
def consStretch (b : Byte) : List Stretch → List Stretch
  | [] => [{ byte := b, size := 1 }]
  | x :: xs => if x.byte = b then { x with size := x.size + 1 } :: xs else { byte := b, size := 1 } :: x :: xs

/-- The maximal stretches of a byte list, left to right. -/
def stretches : List Byte → List Stretch
  | [] => []
  | b :: bs => consStretch b (stretches bs)

/-- `piece(v, n)` (42_sequence_functions.md R161). -/
def piece (compat : Bool) (x : Stretch) : List Run :=
  List.replicate (x.size / 255) { value := x.byte, length := 255#8 } ++
    (if x.size % 255 = 0 ∧ compat = false then [] else [{ value := x.byte, length := BitVec.ofNat 8 (x.size % 255) }])

/-! ## The container (20_memory.md R58, R70) -/

/-- `ser`: each record is two bytes, value first. -/
def ser : List Run → List Byte
  | [] => []
  | r :: rs => r.value :: r.length :: ser rs

/-- `deser`: its inverse on byte lists of even length; an odd length is refused (20_memory.md R60, R70; log 17). -/
def deser : List Byte → Option (List Run)
  | [] => some []
  | [_] => none
  | v :: l :: bs => (deser bs).map ({ value := v, length := l } :: ·)

end Sys2Proof.Machine
end

