-- ==== Sys2Proof/Safety.lean ====
section
/-! DEFINITION. What the claims speak of: the invariant of the state (10_state.md R38), "no fault recorded"
(60_exceptions.md R196), the states no run of events can tell apart (10_state.md R24, R28), and the host's
duties (70_reset_and_hazards.md). -/

namespace Sys2Proof.Machine

/-- `n` steps of the machine. -/
def runFor (n : Nat) (s : State) : Result := Host.Core.run Sys2Proof.core n s

/-- The counter is in range while a run is accumulated (10_state.md R38 (a)). -/
abbrev CounterInRange (s : State) : Prop := s.enc.ph = .run → s.enc.cnt.toNat ≤ 254

/-- The invariant every step keeps: the counter in range (10_state.md R38 (a)); after a step that ended a
call the encoder is idle (40_encoder.md R115); a raised error is recorded (10_state.md R38 (c)); after a
step that took `DEC.END` the decoder is idle (41_decoder.md R142). -/
abbrev StateInv (s : State) : Prop :=
  CounterInRange s ∧
  (s.enc.status ≠ none → s.enc.ph = .idle) ∧
  (s.enc.status = some .errEmpty → s.enc.err = true) ∧
  (s.dec.done = true → s.dec.rem = 0#8)

/-- No fault recorded since the last reset (60_exceptions.md R196). -/
abbrev NoErrorRecorded (s : State) : Prop := s.enc.err = false

/-- Both units are in their idle states (10_state.md R36). -/
abbrev BothIdle (s : State) : Prop := s.enc.ph = .idle ∧ s.dec.rem = 0#8

/-- No reset in the next `n` cycles. -/
abbrev NoResetFor (n : Nat) (s : State) : Prop := ∀ k < n, (s.plan.pinsAt k).rst = false

/-- The host is eager from now on: it offers every beat, takes every output and asserts no reset. -/
abbrev EagerHost (s : State) : Prop := s.plan = Plan.eager

/-- The pins of the cycle after the coming one. -/
def nextPins (s : State) : Pins := s.plan.pinsAt 1

/-- In the next `n` cycles, without reset, the host takes no record: the encoder is stopped as long
(70_reset_and_hazards.md R236). -/
abbrev RefusesRecordsFor (n : Nat) (s : State) : Prop :=
  ∀ k < n, (s.plan.pinsAt k).rst = false ∧ (s.plan.pinsAt k).encOutReady = false

/-- In the next `n` cycles, without reset, the host takes no byte: a decoder inside a run is stopped as long
(70_reset_and_hazards.md R236). -/
abbrev RefusesBytesFor (n : Nat) (s : State) : Prop :=
  ∀ k < n, (s.plan.pinsAt k).rst = false ∧ (s.plan.pinsAt k).decOutReady = false

/-- The host keeps the handshake on ENC_IN: a beat offered and not transferred is offered again in the
next cycle (20_memory.md R54, 70_reset_and_hazards.md R236). -/
abbrev KeepsEncOffer (s : State) : Prop :=
  (encInBeat s).isSome = true → encTransfer s = false → (nextPins s).encInValid = true

/-- The host keeps the handshake on DEC_IN. -/
abbrev KeepsDecOffer (s : State) : Prop :=
  (decInBeat s).isSome = true → decTransfer s = false → (nextPins s).decInValid = true

/-- The encoder with its unspecified registers blanked: `CUR` and `CNT` while idle (10_state.md R22, R23). -/
def encObservable (e : Encoder) : Encoder :=
  match e.ph with
  | .idle => { e with cur := 0#8, cnt := 0#8 }
  | .run => e

/-- The decoder with its unspecified register blanked: `VAL` while `REM = 0` (10_state.md R26). -/
def decObservable (d : Decoder) : Decoder := if d.rem = 0#8 then { d with val := 0#8 } else d

/-- Two states that differ at most in registers no rule reads and in the index of the free values
(10_state.md R24, R28). -/
def Indistinguishable (s t : State) : Prop :=
  s.cfg = t.cfg ∧ s.plan = t.plan ∧ encObservable s.enc = encObservable t.enc ∧
    decObservable s.dec = decObservable t.dec

/-- The coming cycle is a gated flush at count 0 (40_encoder.md R120): a differing byte or an end marker is
accepted in `RUN` with `CNT = 0`. The only case in which the two settings of COMPAT_ZERO_RUNS differ. -/
abbrev FlushesZeroCount (s : State) : Prop :=
  encTransfer s = true ∧ s.enc.ph = .run ∧ s.enc.cnt = 0#8 ∧
    (encInBeat s).map einEvent ≠ some (.byte s.enc.cur)

/-- The bytes among a list of ENC_IN beats, in order. -/
def beatBytes (ws : List EinWord) : List Byte :=
  ws.filterMap fun w => if einEnd w then none else some (einData w)

/-- The runs among a list of DEC_IN beats, in order. -/
def beatRuns (ws : List DinWord) : List Run :=
  ws.filterMap fun w => if dinEnd w then none else some { value := dinValue w, length := dinLength w }

/-- The bytes the encoder has accepted and not yet emitted: those of the run it accumulates (20_memory.md
R65). -/
def encPending (e : Encoder) : List Byte :=
  match e.ph with
  | .idle => []
  | .run => List.replicate e.cnt.toNat e.cur

/-- The bytes the encoder's past and future records stand for: those of the records emitted, those of the
run accumulated, those still on ENC_IN (40_encoder.md R124). -/
def encAccount (s : State) : List Byte :=
  decodeSeq s.enc.output ++ encPending s.enc ++ beatBytes s.enc.input

/-- The bytes the decoder has emitted and is still to emit for what it holds and what waits on DEC_IN
(41_decoder.md R145). -/
def decAccount (s : State) : List Byte :=
  s.dec.output ++ List.replicate s.dec.rem.toNat s.dec.val ++ decodeSeq (beatRuns s.dec.input)

end Sys2Proof.Machine
end

