-- ==== Sys2Proof/Certificates/Slice0/Obligations.lean ====
section
/-! DEFINITION. The statements for the provers, from the numbered rules of spec/. An equation
`exec i s = .next t` with `t` written out says all of the instruction's effect and all of its frame: what
`t` does not mention is as in `s`. -/

open Sys2Proof Sys2Proof.Machine

/-! ## Encodings -/

/-- Words written out from 30_encoding.md R92 and 95_test_vectors.md (ES17, DS8, P1, P3) decode to the
events they stand for. -/
def Obligations.SampleBeatsDecode : Prop :=
  decode (.ein 0x061) = .encByte 0x61 ∧ decode (.ein 0x0FF) = .encByte 0xFF ∧
  decode (.ein 0x100) = .encEnd ∧ decode (.ein 0x1A5) = .encEnd ∧
  decode (.din 0x06103) = .decRun 0x61 3 ∧ decode (.din 0x0AAFF) = .decRun 0xAA 255 ∧
  decode (.din 0x10000) = .decEnd ∧ decode (.din 0x1BEEF) = .decEnd

/-- 30_encoding.md sections 1 and 3: decoding the encoding of any instruction gives it back, with every
operand at every value, on the stream of the instruction's format. The clauses on decodeTableWord rest on the
model's choice of log 14 (DESIGN CHOICE): a raw word of 9 to 16 bits is an EIN beat, one of 17 to 32 bits a
DIN beat. -/
def Obligations.DecodeOfEncodeIsIdentity : Prop :=
  ∀ i : Instr, i.wf = true → decode (encode i) = i ∧
    (match encode i with
      | .ein w => i.format = .ein ∧ decodeTableWord 16 w.toNat = some i
      | .din w => i.format = .din ∧ decodeTableWord 24 w.toNat = some i)

/-- 30_encoding.md R88: every pattern of both formats is one of the four events; the payload of an end
marker is ignored; a data beat's payload is its operands, all of it. -/
def Obligations.EveryBeatIsLegal : Prop :=
  (∀ w : Nat, w < 512 → ∃ i, decodeRaw .ein w = .ok i) ∧
  (∀ w : Nat, w < 131072 → ∃ i, decodeRaw .din w = .ok i) ∧
  (∀ w : EinWord, w &&& 0x100#9 = 0x100#9 → decode (.ein w) = .encEnd) ∧
  (∀ w : EinWord, w &&& 0x100#9 = 0x000#9 →
    decode (.ein w) = .encByte (w.extractLsb' 0 8) ∧ encode (decode (.ein w)) = .ein w) ∧
  (∀ w : DinWord, w &&& 0x10000#17 = 0x10000#17 → decode (.din w) = .decEnd) ∧
  (∀ w : DinWord, w &&& 0x10000#17 = 0x00000#17 →
    decode (.din w) = .decRun (w.extractLsb' 8 8) (w.extractLsb' 0 8) ∧ encode (decode (.din w)) = .din w)

/-- 20_memory.md R59: the record as a word, its two fields, no bit lost either way, the same word inside a
DIN beat, and its more significant byte first is the container's order. -/
def Obligations.RecordWordPacksValueThenLength : Prop :=
  (∀ r : Run, (recWord r).extractLsb' 8 8 = r.value ∧ (recWord r).extractLsb' 0 8 = r.length ∧
    recOfWord (recWord r) = r ∧ ser [r] = [(recWord r).extractLsb' 8 8, (recWord r).extractLsb' 0 8]) ∧
  (∀ w : RecWord, recWord (recOfWord w) = w) ∧
  (∀ w : DinWord, w.getLsbD 16 = false → decode (.din w) =
    .decRun (recOfWord (w.extractLsb' 0 16)).value (recOfWord (w.extractLsb' 0 16)).length) ∧
  (∀ r : Run, ∃ w : DinWord, encode (.decRun r.value r.length) = .din w ∧ w.extractLsb' 0 16 = recWord r)

/-! ## ENC.BYTE -/

/-- 40_encoder.md R111: FIRST. It completes from every idle state. -/
def Obligations.EncByteFirstStartsRun : Prop :=
  ∀ (b : Byte) (s : State), s.enc.ph = .idle →
    exec (.encByte b) s = .next { s with enc := { s.enc with
      ph := .run, cur := b, cnt := 1#8, input := s.enc.input.tail, status := none } }

/-- 40_encoder.md R112: MATCH. -/
def Obligations.EncByteMatchCounts : Prop :=
  ∀ (b : Byte) (s : State), s.enc.ph = .run → b = s.enc.cur → s.enc.cnt.toNat ≤ 253 →
    (s.enc.cnt + 1#8).toNat = s.enc.cnt.toNat + 1 ∧
    exec (.encByte b) s = .next { s with enc := { s.enc with
      cnt := s.enc.cnt + 1#8, input := s.enc.input.tail, status := none } }

/-- 40_encoder.md R113: OVERFLOW, in both modes alike. -/
def Obligations.EncByteOverflowFlushes255 : Prop :=
  ∀ (b : Byte) (s : State), s.enc.ph = .run → b = s.enc.cur → s.enc.cnt = 254#8 →
    exec (.encByte b) s = .next { s with enc := { s.enc with
      cnt := 0#8, input := s.enc.input.tail, status := none,
      output := s.enc.output ++ [{ value := s.enc.cur, length := 255#8 }] } }

/-- 40_encoder.md R114 with the gate of R120: MISMATCH, for every count, zero included. -/
def Obligations.EncByteMismatchFlushesAndRestarts : Prop :=
  ∀ (b : Byte) (s : State), s.enc.ph = .run → b ≠ s.enc.cur →
    exec (.encByte b) s = .next { s with enc := { s.enc with
      cur := b, cnt := 1#8, input := s.enc.input.tail, status := none,
      output := s.enc.output ++
        (if s.enc.cnt ≠ 0#8 ∨ s.cfg.compatZeroRuns = true
          then [{ value := s.enc.cur, length := s.enc.cnt }] else []) } }

/-- 40_encoder.md R110: the dispatch of ENC.BYTE, with its encoding. Exactly one case applies; no
exception, no strobe, ENC.ERR unchanged, at most one record. -/
def Obligations.EncByteDispatch : Prop :=
  (∀ w : EinWord, w.getLsbD 8 = false → decode (.ein w) = .encByte (w.extractLsb' 0 8)) ∧
  ∀ (b : Byte) (s : State), CounterInRange s →
    ∃ t, exec (.encByte b) s = .next t ∧ t.enc.err = s.enc.err ∧ t.enc.status = none ∧ t.enc.ph = .run ∧
      (s.enc.ph = .idle → t.enc.cur = b ∧ t.enc.cnt = 1#8 ∧ t.enc.output = s.enc.output) ∧
      (s.enc.ph = .run → b = s.enc.cur → s.enc.cnt ≠ 254#8 →
        t.enc.cur = b ∧ t.enc.cnt.toNat = s.enc.cnt.toNat + 1 ∧ t.enc.output = s.enc.output) ∧
      (s.enc.ph = .run → b = s.enc.cur → s.enc.cnt = 254#8 →
        t.enc.cur = b ∧ t.enc.cnt = 0#8 ∧ t.enc.output = s.enc.output ++ [{ value := b, length := 255#8 }]) ∧
      (s.enc.ph = .run → b ≠ s.enc.cur → t.enc.cur = b ∧ t.enc.cnt = 1#8 ∧
        t.enc.output = s.enc.output ++
          (if s.enc.cnt = 0#8 ∧ s.cfg.compatZeroRuns = false then []
            else [{ value := s.enc.cur, length := s.enc.cnt }]))

/-- The model's choice of log 4 (DESIGN CHOICE): a matching byte with CNT = 255, which no run reaches
(40_encoder.md section 5), runs; nothing is emitted, phase and value stay, whatever value CNT takes. -/
def Obligations.EncByteAtCount255Runs : Prop :=
  ∀ (b : Byte) (s : State), s.enc.ph = .run → b = s.enc.cur → s.enc.cnt = 255#8 →
    ∃ (c : Byte) (n : Nat), exec (.encByte b) s = .next { s with
      enc := { s.enc with cnt := c, input := s.enc.input.tail, status := none }
      freeIdx := n }

/-! ## ENC.END and the one error -/

/-- 40_encoder.md R116 with the gate of R120: FLUSH, for every count, zero included. -/
def Obligations.EncEndFlushesLastRun : Prop :=
  ∀ s : State, s.enc.ph = .run →
    exec .encEnd s = .next { s with enc := { s.enc with
      ph := .idle, input := s.enc.input.tail, status := some .done,
      output := s.enc.output ++
        (if s.enc.cnt ≠ 0#8 ∨ s.cfg.compatZeroRuns = true
          then [{ value := s.enc.cur, length := s.enc.cnt }] else []) } }

/-- 40_encoder.md R117: EMPTY. The whole effect of the error: only the beat is taken, the strobe asserted
and ENC.ERR set. -/
def Obligations.EncEndOnIdleRaisesEmptyInput : Prop :=
  ∀ s : State, s.enc.ph = .idle →
    exec .encEnd s = .next { s with enc := { s.enc with
      err := true, input := s.enc.input.tail, status := some .errEmpty } }

/-- 40_encoder.md R115: the dispatch of ENC.END, with its encoding. The state after is always IDLE. -/
def Obligations.EncEndDispatch : Prop :=
  (∀ w : EinWord, w.getLsbD 8 = true → decode (.ein w) = .encEnd) ∧
  ∀ s : State, ∃ t, exec .encEnd s = .next t ∧ t.enc.ph = .idle ∧
    (s.enc.ph = .run → encDone t = true ∧ encErrEmpty t = false ∧ t.enc.err = s.enc.err ∧
      t.enc.output = s.enc.output ++
        (if s.enc.cnt = 0#8 ∧ s.cfg.compatZeroRuns = false then []
          else [{ value := s.enc.cur, length := s.enc.cnt }])) ∧
    (s.enc.ph = .idle → encDone t = false ∧ encErrEmpty t = true ∧ t.enc.err = true ∧
      t.enc.output = s.enc.output)

/-- 60_exceptions.md section 1: one error, raised by the encoder alone (R190), exactly by ENC.END in IDLE (R191),
and cleared by no event (R196). That the error, and with it every instruction in every state, has a next state
is the model's reading of log 9 (DEDUCED); for a matching byte at CNT = 255 it is the model's choice of log 4
(DESIGN CHOICE). -/
def Obligations.OnlyErrorIsEmptyInput : Prop :=
  ∀ (i : Instr) (s : State), ∃ t, exec i s = .next t ∧
    (s.enc.status ≠ some .errEmpty →
      (t.enc.status = some .errEmpty ↔ i = .encEnd ∧ s.enc.ph = .idle)) ∧
    (s.enc.err = false → (t.enc.err = true ↔ i = .encEnd ∧ s.enc.ph = .idle)) ∧
    (s.enc.err = true → t.enc.err = true)

/-- 10_state.md R25: ENC.ERR is set by the step that raises the error, cleared only by reset, and read by
no rule: with either value the machine does the same and keeps it beside. It is the output enc_err; that this
holds in a cycle with rst = 1 too is the model's reading of log 20 (DEDUCED); a matching byte at CNT = 255 leaves
it alone by the model's choice of log 4 (DESIGN CHOICE). -/
def Obligations.ErrFlagIsStickyAndNeverRead : Prop :=
  (∀ s t : State, step s = .next t →
    t.enc.err = (if s.pins.rst then false else s.enc.err || (encTakesEnd s && s.enc.ph == .idle))) ∧
  (∀ (s t : State) (v : Bool), step s = .next t →
    ∃ u, step { s with enc := { s.enc with err := v } } = .next u ∧
      u = { t with enc := { t.enc with err := u.enc.err } }) ∧
  (∀ s : State, (ports s).encErr = s.enc.err)

/-! ## The encoder as a whole -/

/-- The frame of the encoder's events (40_encoder.md sections 2 and 3, 20_memory.md section 4): the decoder,
the configuration and the plan are as before; exactly the head of ENC_IN is taken; ENC_OUT keeps all it
had and gains at most one record; ENC.BYTE keeps ENC.ERR, ENC.END keeps ENC.CUR and ENC.CNT. For a matching
byte at CNT = 255 this is the model's choice of log 4 (DESIGN CHOICE). -/
def Obligations.EncoderEventsFrame : Prop :=
  (∀ (b : Byte) (s t : State), exec (.encByte b) s = .next t →
    t.dec = s.dec ∧ t.cfg = s.cfg ∧ t.plan = s.plan ∧ t.enc.err = s.enc.err ∧
    t.enc.input = s.enc.input.tail ∧
    (t.enc.output = s.enc.output ∨ ∃ r, t.enc.output = s.enc.output ++ [r]) ∧
    (s.enc.ph = .run → b = s.enc.cur → t.enc.cur = s.enc.cur)) ∧
  (∀ s t : State, exec .encEnd s = .next t →
    t.dec = s.dec ∧ t.cfg = s.cfg ∧ t.plan = s.plan ∧ t.freeIdx = s.freeIdx ∧
    t.enc.input = s.enc.input.tail ∧ t.enc.cur = s.enc.cur ∧ t.enc.cnt = s.enc.cnt ∧
    (t.enc.output = s.enc.output ∨ ∃ r, t.enc.output = s.enc.output ++ [r]))

/-- 40_encoder.md R121: the registers and streams do what enc_step does on the abstract state, for both
events, in both modes. -/
def Obligations.EncoderRefinesEncStep : Prop :=
  ∀ (e : EncEvent) (s : State) (a : EncState), encAbs s.enc = some a →
    ∃ t, exec e.instr s = .next t ∧
      encAbs t.enc = some (encStep s.cfg.compatZeroRuns a e).next ∧
      t.enc.output = s.enc.output ++ (encStep s.cfg.compatZeroRuns a e).record.toList ∧
      t.enc.status = (encStep s.cfg.compatZeroRuns a e).status ∧
      t.enc.err = (s.enc.err || (encStep s.cfg.compatZeroRuns a e).status == some .errEmpty)

/-- COMPAT_ZERO_RUNS (00_scope.md section 4; 40_encoder.md section 1) gates records and nothing else: under
another setting a step gives the same registers, strobes and decoder, and an ENC_OUT that differs at most by
one record, of length 0. The gate: in a gated flush at count 0 compat mode emits the record (CUR, 0) and suppress
mode emits nothing; in every other cycle the two modes emit the same (a matching byte at CNT = 255 among them,
which emits nothing by the model's choice of log 4, DESIGN CHOICE). -/
def Obligations.CompatGatesOnlyZeroRecords : Prop :=
  (∀ (s t : State) (c : Config), step s = .next t →
    ∃ u, step { s with cfg := c } = .next u ∧ u.cfg = c ∧ u.dec = t.dec ∧ u.plan = t.plan ∧
      u.enc = { t.enc with output := u.enc.output } ∧
      (u.enc.output = t.enc.output ∨
        (∃ v, u.enc.output = t.enc.output ++ [{ value := v, length := 0#8 }]) ∨
        (∃ v, t.enc.output = u.enc.output ++ [{ value := v, length := 0#8 }]))) ∧
  (∀ s t u : State, step { s with cfg := { compatZeroRuns := true } } = .next t →
    step { s with cfg := { compatZeroRuns := false } } = .next u →
    (FlushesZeroCount s → t.enc.output = s.enc.output ++ [{ value := s.enc.cur, length := 0#8 }] ∧
      u.enc.output = s.enc.output) ∧
    (¬FlushesZeroCount s → t.enc.output = u.enc.output))

/-! ## The decoder -/

/-- 41_decoder.md R140: DEC.RUN loads the run when REM = 0, whatever the record; while REM ≠ 0 it is not
accepted and waits at the head of DEC_IN. -/
def Obligations.DecRunLoadsOrWaits : Prop :=
  (∀ w : DinWord, w.getLsbD 16 = false →
    decode (.din w) = .decRun (w.extractLsb' 8 8) (w.extractLsb' 0 8)) ∧
  (∀ (v l : Byte) (s : State), s.dec.rem = 0#8 →
    exec (.decRun v l) s = .next { s with dec := { s.dec with
      val := v, rem := l, input := s.dec.input.tail, done := false } }) ∧
  (∀ (v l : Byte) (s : State), s.dec.rem ≠ 0#8 →
    exec (.decRun v l) s = .next { s with dec := { s.dec with done := false } })

/-- 41_decoder.md R142: DEC.END strobes dec_done when REM = 0 and changes nothing else; while REM ≠ 0 it
is not enabled and waits. -/
def Obligations.DecEndStrobesOrWaits : Prop :=
  (∀ w : DinWord, w.getLsbD 16 = true → decode (.din w) = .decEnd) ∧
  (∀ s : State, s.dec.rem = 0#8 →
    exec .decEnd s = .next { s with dec := { s.dec with input := s.dec.input.tail, done := true } }) ∧
  (∀ s : State, s.dec.rem ≠ 0#8 →
    exec .decEnd s = .next { s with dec := { s.dec with done := false } })

/-- 41_decoder.md R141: DEC.EMIT, the decoder's own step: in a cycle without reset, with REM ≠ 0 and the
host ready, it pushes VAL and counts down, whatever the encoder does and whatever waits on DEC_IN; with
REM = 0, or with a host that can take no byte, it is not enabled and no byte comes out. -/
def Obligations.DecEmitPushesAndCountsDown : Prop :=
  (∀ s : State, s.pins.rst = false → s.dec.rem ≠ 0#8 → s.pins.decOutReady = true →
    ∃ t, step s = .next t ∧ t.dec.rem.toNat = s.dec.rem.toNat - 1 ∧
      t.dec = { s.dec with rem := t.dec.rem, output := s.dec.output ++ [s.dec.val], done := false }) ∧
  (∀ s t : State, s.dec.rem = 0#8 ∨ s.pins.decOutReady = false → step s = .next t →
    t.dec.output = s.dec.output)

/-- The frame of the decoder's events and of DEC.EMIT (41_decoder.md sections 2 to 4, 20_memory.md section
4): the encoder, the configuration, the plan and the free values are as before; DEC_OUT is unchanged by an
event and gains exactly one byte by DEC.EMIT; DEC_IN loses its head exactly when the event is accepted. -/
def Obligations.DecoderEventsFrame : Prop :=
  (∀ (v l : Byte) (s t : State), exec (.decRun v l) s = .next t →
    t.enc = s.enc ∧ t.cfg = s.cfg ∧ t.plan = s.plan ∧ t.freeIdx = s.freeIdx ∧ t.dec.output = s.dec.output ∧
    t.dec.input = (if s.dec.rem = 0#8 then s.dec.input.tail else s.dec.input)) ∧
  (∀ s t : State, exec .decEnd s = .next t →
    t.enc = s.enc ∧ t.cfg = s.cfg ∧ t.plan = s.plan ∧ t.freeIdx = s.freeIdx ∧ t.dec.output = s.dec.output ∧
    t.dec.val = s.dec.val ∧ t.dec.rem = s.dec.rem ∧
    t.dec.input = (if s.dec.rem = 0#8 then s.dec.input.tail else s.dec.input)) ∧
  (∀ s : State, s.dec.rem ≠ 0#8 →
    (decEmit s).enc = s.enc ∧ (decEmit s).cfg = s.cfg ∧ (decEmit s).plan = s.plan ∧
    (decEmit s).freeIdx = s.freeIdx ∧ (decEmit s).dec.val = s.dec.val ∧
    (decEmit s).dec.input = s.dec.input ∧ (decEmit s).dec.output = s.dec.output ++ [s.dec.val])

/-- 41_decoder.md R143: the registers do what dec_accept and dec_emit do; in every state exactly one of the
two is enabled; and the output bytes are a function of the input events: two runs over the same events,
however long and under whatever offers and back-pressure, differ at most in how far they came. -/
def Obligations.DecoderRefinesDecStep : Prop :=
  (∀ (e : DecEvent) (s : State) (o : DecOut), decAcceptStep (decAbs s.dec) e = some o →
    ∃ t, exec e.instr s = .next t ∧ decAbs t.dec = o.next ∧
      t.dec.output = s.dec.output ++ o.byte.toList ∧ t.dec.done = o.done) ∧
  (∀ (s : State) (o : DecOut), decEmitStep (decAbs s.dec) = some o →
    decAbs (decEmit s).dec = o.next ∧ (decEmit s).dec.output = s.dec.output ++ o.byte.toList ∧
      (decEmit s).dec.done = o.done) ∧
  (∀ (d : DecState) (e : DecEvent), (decAcceptStep d e).isSome = !(decEmitStep d).isSome) ∧
  (∀ (n m : Nat) (s u t v : State), NoResetFor n s → NoResetFor m u → s.dec.rem = 0#8 → u.dec.rem = 0#8 →
    s.dec.input = u.dec.input → s.dec.output = u.dec.output → runFor n s = .next t → runFor m u = .next v →
    t.dec.output <+: v.dec.output ∨ v.dec.output <+: t.dec.output)

/-- 41_decoder.md section 6 (the spec's own inference): from idle, with a host that withholds nothing,
DEC.RUN(v, l) and then exactly l emit steps emit exactly l copies of v and end idle. -/
def Obligations.DecRunExpandsInLengthSteps : Prop :=
  ∀ (v l : Byte) (rest : List DinWord) (s : State), EagerHost s → s.dec.rem = 0#8 →
    s.dec.input = dinRun v l :: rest →
    ∃ t, runFor (l.toNat + 1) s = .next t ∧ t.dec.val = v ∧ t.dec.rem = 0#8 ∧ t.dec.input = rest ∧
      t.dec.output = s.dec.output ++ List.replicate l.toNat v

/-- 41_decoder.md R146: the decoder never fails. Every decoder event in every state has a next state and
leaves the error flag and strobes of the encoder alone, and from (v, l) the decoder is idle again after l
emit steps, provided the host keeps taking bytes. -/
def Obligations.DecoderNeverFails : Prop :=
  (∀ (e : DecEvent) (s : State), ∃ t, exec e.instr s = .next t ∧ t.enc = s.enc) ∧
  (∀ (n : Nat) (s : State), n = s.dec.rem.toNat →
    (∀ k < n, (s.plan.pinsAt k).rst = false ∧ (s.plan.pinsAt k).decOutReady = true) →
    ∃ t, runFor n s = .next t ∧ t.dec.rem = 0#8 ∧ t.dec.val = s.dec.val ∧ t.dec.input = s.dec.input ∧
      t.dec.output = s.dec.output ++ List.replicate n s.dec.val)

/-! ## The step -/

/-- A step runs the decoded instruction (20_memory.md section 2). In a cycle without reset, the beat the
encoder accepts is decoded and executed on the state at the start of the cycle (pins used up, strobes 0),
then the beat the decoder accepts; with one unit only, the step is that one exec. The model's own: one step is
one cycle of both units, the encoder computed first (log 7, DEDUCED); the plan of pins (log 6, DESIGN CHOICE); the
strobes recorded in the state (log 8, DESIGN CHOICE); exec takes the accepted beat itself (log 10, DEDUCED). -/
def Obligations.StepRunsDecodedInstruction : Prop :=
  (∀ (s : State) (w : EinWord), encTransfer s = true → encInBeat s = some w →
    decTransfer s = false → decEmits s = false →
    step s = exec (decode (.ein w)) (beginCycle s)) ∧
  (∀ (s : State) (w : DinWord), encTransfer s = false → decTransfer s = true → decInBeat s = some w →
    step s = exec (decode (.din w)) (beginCycle s)) ∧
  (∀ (s : State) (w : EinWord) (x : DinWord), encTransfer s = true → encInBeat s = some w →
    decTransfer s = true → decInBeat s = some x →
    step s = andThen (exec (decode (.ein w)) (beginCycle s)) (exec (decode (.din x)))) ∧
  (∀ (s : State) (w : EinWord), encTransfer s = true → encInBeat s = some w → decEmits s = true →
    step s = andThen (exec (decode (.ein w)) (beginCycle s)) (fun u => .next (decEmit u))) ∧
  (∀ s : State, encTransfer s = false → decEmits s = true → step s = .next (decEmit (beginCycle s))) ∧
  (∀ s : State, s.pins.rst = false → encTransfer s = false → decTransfer s = false → decEmits s = false →
    step s = .next (beginCycle s)) ∧
  (∀ s : State, beginCycle s = { s with
    plan := s.plan.tail, enc := { s.enc with status := none }, dec := { s.dec with done := false } })

/-- No state stops the machine (60_exceptions.md section 1, 70_reset_and_hazards.md section 1): every step,
in every state whatever, gives a next state; and COMPAT_ZERO_RUNS, a constant of the instance, is never
written. The model's own: a matching byte at CNT = 255 goes on (log 4, DESIGN CHOICE), the error goes on (log 9,
DEDUCED), and the plan of pins moves on by one cycle (log 6, DESIGN CHOICE). -/
def Obligations.EveryStepGoesOn : Prop :=
  ∀ s : State, ∃ t, step s = .next t ∧ t.cfg = s.cfg ∧ t.plan = s.plan.tail

/-- The placed table word is what the next step runs (the model's own loading, log 12): for every
instruction and every state, the word of its encoding, placed, is executed by the next step. -/
def Obligations.PlacedWordRunsNext : Prop :=
  ∀ (i : Instr) (s : State), ∃ u v,
    (match encode i with
      | .ein w => step (s.withFetchWord 16 w.toNat) = exec i u ∧
          u.enc = { s.enc with input := w :: s.enc.input, status := none } ∧ u.dec = { s.dec with done := false }
      | .din w => step (s.withFetchWord 24 w.toNat) = exec i u ∧
          u.enc = { s.enc with status := none } ∧
          u.dec = { s.dec with rem := 0#8, input := w :: s.dec.input, done := false }) ∧
    u.cfg = s.cfg ∧ u.plan = s.plan ∧ exec i u = .next v

/-! ## Ports -/

/-- 20_memory.md R55: the encoder's port equations, and that the step is what they say: at an edge with
enc_in_valid and enc_out_ready the event is accepted, the state follows enc_step, and the record, if any,
is transferred in the same cycle; otherwise the encoder keeps its state. -/
def Obligations.EncoderPortEquations : Prop :=
  ∀ s t : State, s.pins.rst = false → step s = .next t →
    (ports s).encInReady = s.pins.encOutReady ∧
    (encInBeat s = none → (ports s).encOut = none) ∧
    ((encInBeat s = none ∨ s.pins.encOutReady = false) → t.enc = { s.enc with status := none }) ∧
    (∀ (w : EinWord) (a : EncState), encInBeat s = some w → encAbs s.enc = some a →
      (ports s).encOut = (encStep s.cfg.compatZeroRuns a (einEvent w)).record ∧
      (s.pins.encOutReady = true →
        t.enc.input = s.enc.input.tail ∧
        encAbs t.enc = some (encStep s.cfg.compatZeroRuns a (einEvent w)).next ∧
        t.enc.output = s.enc.output ++ (ports s).encOut.toList))

/-- 20_memory.md R56: the decoder's port equations, and that the step is what they say; accept and emit are
never enabled in the same cycle; a beat that waits keeps its place. -/
def Obligations.DecoderPortEquations : Prop :=
  ∀ s t : State, s.pins.rst = false → step s = .next t →
    ((ports s).decInReady = true ↔ s.dec.rem = 0#8) ∧
    ((ports s).decOutValid = true ↔ s.dec.rem ≠ 0#8) ∧ (ports s).decOutData = some s.dec.val ∧
    ¬(decTransfer s = true ∧ decEmits s = true) ∧
    (∀ (v l : Byte), decTransfer s = true → (decInBeat s).map decodeDin = some (.decRun v l) →
      t.dec = { s.dec with val := v, rem := l, input := s.dec.input.tail, done := false }) ∧
    (decTransfer s = true → (decInBeat s).map decodeDin = some .decEnd →
      t.dec = { s.dec with input := s.dec.input.tail, done := true }) ∧
    (decEmits s = true → t.dec.output = s.dec.output ++ (ports s).decOutData.toList ∧
      t.dec.rem.toNat + 1 = s.dec.rem.toNat ∧ t.dec.input = s.dec.input ∧ t.dec.val = s.dec.val) ∧
    (decTransfer s = false → decEmits s = false → t.dec = { s.dec with done := false })

/-- 20_memory.md R57: the strobes. Each is 1 exactly in a cycle in which the end marker is accepted under
its condition; the final record goes in the cycle of enc_done; dec_done comes after every byte. -/
def Obligations.StrobesFollowAcceptedEnds : Prop :=
  ∀ s t : State, step s = .next t →
    encDone t = (ports s).encDone ∧ encErrEmpty t = (ports s).encErrEmpty ∧ decDone t = (ports s).decDone ∧
    (encDone t = true ↔ encTakesEnd s = true ∧ s.enc.ph = .run) ∧
    (encErrEmpty t = true ↔ encTakesEnd s = true ∧ s.enc.ph = .idle) ∧
    (decDone t = true ↔ decTakesEnd s = true) ∧
    (encDone t = true → t.enc.output = s.enc.output ++
      (if s.enc.cnt = 0#8 ∧ s.cfg.compatZeroRuns = false then []
        else [{ value := s.enc.cur, length := s.enc.cnt }])) ∧
    (decDone t = true → s.dec.rem = 0#8 ∧ t.dec.output = s.dec.output)

/-- The core's side of the handshake (20_memory.md section 2): an output it offers and the host does not
take is offered again unchanged in the next cycle (on ENC_OUT, when the host keeps its own offer); its
valid does not wait for ready; under reset nothing is offered or accepted. And what a refusing host does to it
(70_reset_and_hazards.md R236): as long as no record is taken the encoder stands still, as long as no byte is
taken a decoder inside a run stands still and goes on offering its byte, neither is an error, and a host that
refuses for ever stops the unit for ever. How far the host's pins are told ahead is the model's own (log 6,
DESIGN CHOICE). -/
def Obligations.OutputsHeldUntilTaken : Prop :=
  (∀ s t : State, step s = .next t → s.pins.rst = false → t.pins.rst = false →
    (ports s).decOutValid = true → s.pins.decOutReady = false →
    (ports t).decOutValid = true ∧ (ports t).decOutData = (ports s).decOutData) ∧
  (∀ (s t : State) (r : Run), step s = .next t → s.pins.rst = false → t.pins.rst = false → KeepsEncOffer s →
    (ports s).encOut = some r → s.pins.encOutReady = false → (ports t).encOut = some r) ∧
  (∀ (s : State) (p q : Pins) (rest : Plan), p.rst = q.rst → p.encInValid = q.encInValid →
    (ports { s with plan := rest.cons p }).encOut = (ports { s with plan := rest.cons q }).encOut ∧
    (ports { s with plan := rest.cons p }).decOutValid = (ports { s with plan := rest.cons q }).decOutValid) ∧
  (∀ s : State, s.pins.rst = true →
    (ports s).encInReady = false ∧ (ports s).encOut = none ∧
    (ports s).decInReady = false ∧ (ports s).decOutValid = false) ∧
  (∀ (n : Nat) (s t : State), RefusesRecordsFor n s → s.enc.status = none → runFor n s = .next t →
    t.enc = s.enc) ∧
  (∀ (n : Nat) (s t : State), RefusesBytesFor (n + 1) s → s.dec.rem ≠ 0#8 → s.dec.done = false →
    runFor n s = .next t →
    t.dec = s.dec ∧ (ports t).decOutValid = true ∧ (ports t).decOutData = some s.dec.val ∧
      (ports t).decInReady = false) ∧
  (∀ s : State, s.plan.coming = [] → s.plan.held.rst = false →
    (s.plan.held.encOutReady = false → ∀ n, RefusesRecordsFor n s) ∧
    (s.plan.held.decOutReady = false → ∀ n, RefusesBytesFor n s))

/-! ## Reset -/

/-- 10_state.md R36: the machine right after reset, for either configuration; the registers R36 leaves
unspecified make no difference, whatever they hold; outputs while reset is asserted. -/
def Obligations.ResetStateIsIdle : Prop :=
  (∃ cfg : Config, State.reset = State.resetWith cfg) ∧
  (∀ (cfg : Config) (cur cnt val : Byte),
    let r := State.resetWith cfg
    r.cfg = cfg ∧ r.enc.ph = .idle ∧ r.enc.err = false ∧ r.dec.rem = 0#8 ∧
    encAbs r.enc = some .idle ∧ encDone r = false ∧ encErrEmpty r = false ∧ decDone r = false ∧
    Indistinguishable r
      { r with enc := { r.enc with cur := cur, cnt := cnt }, dec := { r.dec with val := val } }) ∧
  (∀ s : State, s.pins.rst = true →
    (ports s).encOut = none ∧ (ports s).decOutValid = false ∧
    (ports s).encDone = false ∧ (ports s).encErrEmpty = false ∧ (ports s).decDone = false)

/-- 70_reset_and_hazards.md R220: a clock edge with rst = 1, in the middle of anything, and that nothing
else clears ENC.ERR. -/
def Obligations.ResetCycleIdlesBothUnits : Prop :=
  (∀ s : State, s.pins.rst = true → ∃ t, step s = .next t ∧
    t.enc.ph = .idle ∧ t.enc.err = false ∧ t.dec.rem = 0#8 ∧
    t.enc.input = s.enc.input ∧ t.enc.output = s.enc.output ∧
    t.dec.input = s.dec.input ∧ t.dec.output = s.dec.output ∧
    encDone t = false ∧ encErrEmpty t = false ∧ decDone t = false ∧
    (ports s).encInReady = false ∧ (ports s).encOut = none ∧ (ports s).encDone = false ∧
    (ports s).encErrEmpty = false ∧ (ports s).decInReady = false ∧ (ports s).decOutValid = false ∧
    (ports s).decDone = false) ∧
  (∀ s t : State, step s = .next t → s.enc.err = true → t.enc.err = false → s.pins.rst = true)

/-! ## Invariants -/

/-- The invariant (10_state.md section 6, 40_encoder.md section 5: the spec's own inferences): every step
from every state that meets it gives a state that meets it. -/
def Obligations.StepKeepsInvariant : Prop :=
  ∀ s t : State, StateInv s → step s = .next t → StateInv t

/-- The invariant holds right after reset, in both configurations (10_state.md section 6). -/
def Obligations.InvariantHoldsAtReset : Prop :=
  StateInv State.reset ∧ ∀ cfg : Config, StateInv (State.resetWith cfg)

/-- 10_state.md section 6 (b) (the spec's own inference): a zero count in RUN comes from an overflow. -/
def Obligations.ZeroCountComesFromOverflow : Prop :=
  ∀ s t : State, CounterInRange s → step s = .next t → t.enc.ph = .run → t.enc.cnt = 0#8 →
    (encTransfer s = false ∧ s.enc.ph = .run ∧ s.enc.cnt = 0#8 ∧ s.pins.rst = false) ∨
    (encTransfer s = true ∧ s.enc.ph = .run ∧ s.enc.cnt = 254#8 ∧
      (encInBeat s).map einEvent = some (.byte s.enc.cur))

/-- Every byte counted once (40_encoder.md section 5, the spec's own inference; 90_conflicts.md C2): no
step without reset changes the bytes the encoder's records, its run and its input stand for, in either
mode. -/
def Obligations.EncoderConservesBytes : Prop :=
  ∀ s t : State, CounterInRange s → s.pins.rst = false → step s = .next t → encAccount t = encAccount s

/-- No byte lost or made up (41_decoder.md section 6, the spec's own inference): no step without reset
changes the bytes the decoder has emitted and is still to emit. -/
def Obligations.DecoderConservesBytes : Prop :=
  ∀ s t : State, s.pins.rst = false → step s = .next t → decAccount t = decAccount s

/-! ## Isolation -/

/-- The two units do not affect each other (20_memory.md section 4 (c), 60_exceptions.md section 4): what a step
does to one unit depends on that unit, the pins, the configuration and nothing of the other. Both clauses give
their own premises back, so they hold over any number of steps: the encoder's in every state; the decoder's
where both counters are in range, since a matching byte at CNT = 255, the model's choice of log 4, alone moves
the index of the free values (log 3) that a later reset gives VAL from. -/
def Obligations.UnitsDoNotInteract : Prop :=
  (∀ s t s' t' : State, s.enc = t.enc → s.cfg = t.cfg → s.plan = t.plan → s.freeIdx = t.freeIdx →
    step s = .next s' → step t = .next t' →
    s'.enc = t'.enc ∧ s'.cfg = t'.cfg ∧ s'.plan = t'.plan ∧ s'.freeIdx = t'.freeIdx) ∧
  (∀ s t s' t' : State, s.dec = t.dec → s.plan = t.plan → s.freeIdx = t.freeIdx →
    step s = .next s' → step t = .next t' →
    s'.dec = t'.dec ∧ s'.plan = t'.plan ∧
    (CounterInRange s → CounterInRange t →
      s'.freeIdx = t'.freeIdx ∧ CounterInRange s' ∧ CounterInRange t'))

/-- The unspecified registers cannot be observed (10_state.md sections 2 and 4, the spec's own inference):
states that differ only in CUR and CNT while idle, in VAL while REM = 0 and in the model's free values stay
so under every step, with the same streams, strobes and error flag. So nothing rests on the values of
log 2 and log 3. -/
def Obligations.UnspecifiedRegistersUnobservable : Prop :=
  ∀ s t s' : State, CounterInRange s → Indistinguishable s t → step s = .next s' →
    ∃ t', step t = .next t' ∧ Indistinguishable s' t' ∧
      s'.enc.output = t'.enc.output ∧ s'.dec.output = t'.dec.output ∧
      s'.enc.status = t'.enc.status ∧ s'.dec.done = t'.dec.done ∧ s'.enc.err = t'.enc.err

/-! ## Runs of the machine -/

/-- Ordering and purity of the encoder (20_memory.md section 4, 42_sequence_functions.md section 3): over any number
of cycles without reset, under any offers and any back-pressure, what the encoder emitted, the state it is
in and its error flag are a function of the events it accepted, in their order. -/
def Obligations.EncoderIsAFunctionOfAcceptedEvents : Prop :=
  ∀ (n : Nat) (s t : State) (a : EncState), NoResetFor n s → encAbs s.enc = some a → runFor n s = .next t →
    ∃ k, k ≤ n ∧ t.enc.input = s.enc.input.drop k ∧
      (let tr := encTrace s.cfg.compatZeroRuns a ((s.enc.input.take k).map einEvent)
       encAbs t.enc = some tr.final ∧ t.enc.output = s.enc.output ++ tr.records ∧
       t.enc.err = (s.enc.err || tr.statuses.contains .errEmpty))

/-- Ordering and purity of the decoder (20_memory.md section 4, 41_decoder.md section 6): over any number of
cycles without reset, what it emitted from idle is a prefix of decode of the runs that waited, in order,
DEC_IN loses beats only from its head, and what was emitted, what the decoder still holds and what still waits
are together what there was: nothing is lost. -/
def Obligations.DecoderEmitsRunsInOrder : Prop :=
  ∀ (n : Nat) (s t : State), NoResetFor n s → s.dec.rem = 0#8 → runFor n s = .next t →
    t.dec.output <+: s.dec.output ++ decodeSeq (beatRuns s.dec.input) ∧
    s.dec.output <+: t.dec.output ∧ t.dec.input <:+ s.dec.input ∧ decAccount t = decAccount s

/-- The machine computes encode (42_sequence_functions.md section 1): with a host that withholds nothing, the call
SEQ d from an idle encoder ends after len(d) + 1 steps with the records of encode(d) on ENC_OUT and enc_done,
or, for the empty d, with the error; what waits behind the call is untouched. -/
def Obligations.EncoderComputesEncode : Prop :=
  ∀ (d : List Byte) (rest : List EinWord) (s : State), EagerHost s → s.enc.ph = .idle →
    s.enc.input = encBeats (seqEvents d) ++ rest →
    ∃ t, runFor (d.length + 1) s = .next t ∧ t.enc.ph = .idle ∧ t.enc.input = rest ∧
      (match encodeSeq s.cfg.compatZeroRuns d with
        | .ok rs => t.enc.output = s.enc.output ++ rs ∧ encDone t = true ∧ t.enc.err = s.enc.err
        | .error _ => t.enc.output = s.enc.output ∧ encErrEmpty t = true ∧ t.enc.err = true)

/-- The machine computes decode (42_sequence_functions.md section 1): with a host that withholds nothing, the call
RUNS rs from an idle decoder ends, one step a run, one a byte and one for the end, with decode(rs) on DEC_OUT
and dec_done. -/
def Obligations.DecoderComputesDecode : Prop :=
  ∀ (rs : List Run) (rest : List DinWord) (s : State), EagerHost s → s.dec.rem = 0#8 →
    s.dec.input = decBeats (runsEvents rs) ++ rest →
    ∃ t, runFor (rs.length + (decodeSeq rs).length + 1) s = .next t ∧ t.dec.rem = 0#8 ∧ t.dec.input = rest ∧
      t.dec.output = s.dec.output ++ decodeSeq rs ∧ decDone t = true

/-- The round trip through both units (95_test_vectors.md P5; 42_sequence_functions.md section 3, the spec's
own inference): the host sends any non-empty d to the encoder, hands the records it got to the decoder, and
gets d back, in both modes. -/
def Obligations.MachineRoundTrip : Prop :=
  ∀ (d : List Byte) (s : State), d ≠ [] → EagerHost s → BothIdle s → s.enc.output = [] →
    s.enc.input = encBeats (seqEvents d) → s.dec.input = [] →
    ∃ t n v, runFor (d.length + 1) s = .next t ∧
      runFor n { t with dec := { t.dec with input := decBeats (runsEvents t.enc.output) } } = .next v ∧
      v.dec.output = s.dec.output ++ d ∧ decDone v = true ∧ v.enc.err = s.enc.err

/-- A call that never receives its END is never over (70_reset_and_hazards.md section 3): as long as only data
beats wait and no reset comes, no strobe of the encoder is asserted, the error flag stays, and once a byte
was accepted the encoder is in RUN. With the counter in range the last run stays in the registers: CUR is the
last byte accepted, and the records emitted, CNT copies of CUR and the bytes still waiting are all the bytes
there were, so what CNT counts is in no record. Without that premise the clauses on the strobes, ENC.ERR and
the phase rest at CNT = 255 on the model's choice of log 4 (DESIGN CHOICE). -/
def Obligations.CallWithoutEndIsNeverOver : Prop :=
  ∀ (n : Nat) (s t : State), NoResetFor n s → (∀ w ∈ s.enc.input, einEnd w = false) →
    s.enc.status = none → runFor n s = .next t →
    t.enc.status = none ∧ t.enc.err = s.enc.err ∧
    (s.enc.ph = .run → t.enc.ph = .run) ∧ (t.enc.input ≠ s.enc.input → t.enc.ph = .run) ∧
    (CounterInRange s → CounterInRange t ∧ encAccount t = encAccount s ∧
      ∃ k, t.enc.input = s.enc.input.drop k ∧
        t.enc.cur = (((s.enc.input.take k).getLast?).map einData).getD s.enc.cur)

/-! ## The laws of encode and decode -/

/-- 42_sequence_functions.md R163: emptiness, as functions and as events. -/
def Obligations.EmptyCalls : Prop :=
  (∀ c : Bool, encodeSeq c [] = .error .emptyInputError) ∧ decodeSeq [] = [] ∧
  (∀ s : State, s.enc.ph = .idle → ∃ t, exec .encEnd s = .next t ∧ encErrEmpty t = true ∧ encDone t = false ∧
    t.enc.output = s.enc.output) ∧
  (∀ s : State, s.dec.rem = 0#8 → ∃ t, exec .decEnd s = .next t ∧ decDone t = true ∧ t.dec.output = s.dec.output)

/-- 42_sequence_functions.md R164: the encoder's postcondition, in both modes and with no exception
(90_conflicts.md C4; 95_test_vectors.md T1). -/
def Obligations.DecodeOfEncodeSeq : Prop :=
  ∀ (c : Bool) (d : List Byte), d ≠ [] → ∃ rs, encodeSeq c d = .ok rs ∧ decodeSeq rs = d

/-- 42_sequence_functions.md section 1, the closed form on maximal stretches (the spec's own inference), with
what makes the stretches maximal. -/
def Obligations.EncodeIsPiecewise : Prop :=
  (∀ d : List Byte, (stretches d).flatMap (fun x => List.replicate x.size x.byte) = d ∧
    (∀ x ∈ stretches d, 1 ≤ x.size) ∧ (stretches d).IsChain (fun x y => x.byte ≠ y.byte)) ∧
  (∀ (c : Bool) (d : List Byte), d ≠ [] → encodeSeq c d = .ok ((stretches d).flatMap (piece c)))

/-- 42_sequence_functions.md section 2 (R165): the restricted round trip as the source states it; and what holds for
such inputs, equal modes, lengths 1 to 254 and no equal neighbours, which R165 marks as the spec's own inference
from R161. -/
def Obligations.RestrictedRoundTrip : Prop :=
  ∀ d : List Byte, d ≠ [] → (∀ x ∈ stretches d, x.size < 255) →
    ∃ rs, encodeSeq true d = .ok rs ∧ encodeSeq false d = .ok rs ∧ decodeSeq rs = d ∧
      (∀ r ∈ rs, 1 ≤ r.length.toNat ∧ r.length.toNat ≤ 254) ∧ rs.IsChain (fun x y => x.value ≠ y.value)

/-- 42_sequence_functions.md section 2 (R167): the upper bound on the number of runs, for both modes the spec's own
inference from 40_encoder.md R123; and that inputs without equal neighbours, a single byte among them, reach
it. -/
def Obligations.RunCountAtMostLength : Prop :=
  (∀ (c : Bool) (d : List Byte) (rs : List Run), encodeSeq c d = .ok rs → rs.length ≤ d.length) ∧
  (∀ (c : Bool) (d : List Byte), d ≠ [] → d.IsChain (· ≠ ·) →
    ∃ rs, encodeSeq c d = .ok rs ∧ rs.length = d.length)

/-- 42_sequence_functions.md section 2, the exact counts (the spec's own inference; 90_conflicts.md C3): for a constant
input, for any input as the sum over its stretches, and the bound the source states being wrong. -/
def Obligations.ExactRunCounts : Prop :=
  (∀ (c : Bool) (v : Byte) (n : Nat), 1 ≤ n → ∃ rs, encodeSeq c (List.replicate n v) = .ok rs ∧
    rs.length = (if c then n / 255 + 1 else (n + 254) / 255) ∧ (n + 254) / 255 ≤ rs.length) ∧
  (∀ (c : Bool) (d : List Byte) (rs : List Run), encodeSeq c d = .ok rs →
    rs.length = ((stretches d).map (fun x => if c then x.size / 255 + 1 else (x.size + 254) / 255)).sum) ∧
  (∀ (c : Bool) (v : Byte), ∃ rs, encodeSeq c (List.replicate 509 v) = .ok rs ∧ rs.length < (509 + 253) / 254)

/-- 42_sequence_functions.md R171: a uniform run of exactly 255. -/
def Obligations.Uniform255 : Prop :=
  ∀ v : Byte,
    encodeSeq true (List.replicate 255 v) = .ok [{ value := v, length := 255#8 }, { value := v, length := 0#8 }] ∧
    encodeSeq false (List.replicate 255 v) = .ok [{ value := v, length := 255#8 }] ∧
    decodeSeq [{ value := v, length := 255#8 }, { value := v, length := 0#8 }] = List.replicate 255 v ∧
    decodeSeq [{ value := v, length := 255#8 }] = List.replicate 255 v

/-- 42_sequence_functions.md section 2, worst-case expansion: an input without equal neighbours gives one run of
length 1 a byte, so twice as many container bytes; no input gives more. -/
def Obligations.AlternatingInputExpands : Prop :=
  (∀ (c : Bool) (d : List Byte), d ≠ [] → d.IsChain (· ≠ ·) →
    encodeSeq c d = .ok (d.map fun b => { value := b, length := 1#8 })) ∧
  (∀ (c : Bool) (d : List Byte) (rs : List Run), encodeSeq c d = .ok rs →
    (ser rs).length = 2 * rs.length ∧ (ser rs).length ≤ 2 * d.length)

/-- 42_sequence_functions.md section 3 (the spec's own inference; 95_test_vectors.md T5, T9): suppress mode is compat
mode without the zero-length records, and how often the lengths 255 and 0 occur. -/
def Obligations.SuppressDropsZeroRecords : Prop :=
  ∀ (d : List Byte) (rc rs : List Run), encodeSeq true d = .ok rc → encodeSeq false d = .ok rs →
    rs = rc.filter (fun r => r.length != 0#8) ∧
    (∀ r ∈ rs, 1 ≤ r.length.toNat) ∧
    (rc.countP (fun r => r.length == 255#8) = ((stretches d).map (fun x => x.size / 255)).sum) ∧
    (rs.countP (fun r => r.length == 255#8) = ((stretches d).map (fun x => x.size / 255)).sum) ∧
    (rc.countP (fun r => r.length == 0#8) = (stretches d).countP (fun x => x.size % 255 == 0)) ∧
    (rc = rs ↔ ∀ x ∈ stretches d, x.size % 255 ≠ 0)

/-- 40_encoder.md section 5 (the spec's own inference): records of one call that are neighbours carry the
same value only when the first is an overflow record. -/
def Obligations.EqualNeighboursOnlyAfterOverflow : Prop :=
  ∀ (c : Bool) (d : List Byte) (rs : List Run), encodeSeq c d = .ok rs →
    rs.IsChain (fun x y => x.value = y.value → x.length = 255#8)

/-- 42_sequence_functions.md section 3 (the spec's own inference; 95_test_vectors.md T10, T11): decode distributes over
concatenation, so independently encoded ranges decode to the whole; encode, in compat mode, never does when
the ranges meet in equal bytes. In suppress mode it sometimes does, as the last clause shows, against the
sentence there. -/
def Obligations.ConcatenatedEncodingsDecode : Prop :=
  (∀ r1 r2 : List Run, decodeSeq (r1 ++ r2) = decodeSeq r1 ++ decodeSeq r2) ∧
  (∀ (c : Bool) (d1 d2 : List Byte) (r1 r2 : List Run), encodeSeq c d1 = .ok r1 → encodeSeq c d2 = .ok r2 →
    decodeSeq (r1 ++ r2) = d1 ++ d2) ∧
  (∀ (d1 d2 : List Byte) (r1 r2 : List Run), encodeSeq true d1 = .ok r1 → encodeSeq true d2 = .ok r2 →
    d1.getLast? = d2.head? → encodeSeq true (d1 ++ d2) ≠ .ok (r1 ++ r2)) ∧
  (∀ v : Byte, encodeSeq false (List.replicate 255 v ++ [v]) =
    .ok [{ value := v, length := 255#8 }, { value := v, length := 1#8 }])

/-- 20_memory.md R58: byte 2k of the container is the value of run k and byte 2k + 1 its length, and nothing
else is in it. -/
def Obligations.ContainerByteOrder : Prop :=
  ∀ (rs : List Run), (ser rs).length = 2 * rs.length ∧
    ∀ k : Nat, (ser rs)[2 * k]? = (rs[k]?).map Run.value ∧ (ser rs)[2 * k + 1]? = (rs[k]?).map Run.length

/-- 42_sequence_functions.md section 3 and 20_memory.md section 6 (the spec's own inferences): the round trip through the
container; deser is the inverse of ser both ways and refuses exactly the odd lengths. -/
def Obligations.ContainerRoundTrip : Prop :=
  (∀ rs : List Run, deser (ser rs) = some rs) ∧
  (∀ (bs : List Byte) (rs : List Run), deser bs = some rs → ser rs = bs) ∧
  (∀ bs : List Byte, (deser bs).isSome = isContainer bs) ∧
  (∀ (c : Bool) (d : List Byte), d ≠ [] →
    ∃ rs, encodeSeq c d = .ok rs ∧ (deser (ser rs)).map decodeSeq = some d)
end

