-- ==== Sys2Proof/Laws/Decode.lean ====
section
/-! SUPPORT. The small lemmas of the decoder and the encoder: each field of each beat the encoder builds, and the
event of each beat of a listing. -/

namespace Sys2Proof

@[simp] theorem einEnd_einByte (b : Byte) : einEnd (einByte b) = false := by
  simp [einEnd, einByte]

@[simp] theorem einData_einByte (b : Byte) : einData (einByte b) = b := by
  apply BitVec.eq_of_getLsbD_eq
  intro i hi
  simp [einData, einByte, hi]
  omega

@[simp] theorem einEnd_endBeat : einEnd einEndBeat = true := by decide

@[simp] theorem dinEnd_dinRun (v l : Byte) : dinEnd (dinRun v l) = false := by
  simp [dinEnd, dinRun]

@[simp] theorem dinValue_dinRun (v l : Byte) : dinValue (dinRun v l) = v := by
  apply BitVec.eq_of_getLsbD_eq
  intro i hi
  have h : 8 + i < 17 := by omega
  simp only [dinValue, dinRun, BitVec.getLsbD_extractLsb', BitVec.getLsbD_setWidth, BitVec.getLsbD_append]
  simp [hi, h]

@[simp] theorem dinLength_dinRun (v l : Byte) : dinLength (dinRun v l) = l := by
  apply BitVec.eq_of_getLsbD_eq
  intro i hi
  have h : i < 17 := by omega
  simp only [dinLength, dinRun, BitVec.getLsbD_extractLsb', BitVec.getLsbD_setWidth, BitVec.getLsbD_append]
  simp [hi, h]

@[simp] theorem dinEnd_endBeat : dinEnd dinEndBeat = true := by decide

/-- A word of a format's width, read back from its number, is that word. -/
theorem rawBeat_toNat_ein (w : EinWord) : rawBeat .ein w.toNat = .ok (.ein w) := by
  have h : w.toNat < 512 := w.isLt
  simp [rawBeat, Format.fits, Format.width, h]

theorem rawBeat_toNat_din (w : DinWord) : rawBeat .din w.toNat = .ok (.din w) := by
  have h : w.toNat < 131072 := w.isLt
  simp [rawBeat, Format.fits, Format.width, h]

namespace Machine

/-- The event of an EIN beat as the instruction the decoder gives. -/
theorem einEvent_instr (w : EinWord) : (einEvent w).instr = decode (.ein w) := by
  by_cases h : einEnd w = true <;> simp [einEvent, decode, decodeEin, h, EncEvent.instr]

theorem dinEvent_instr (w : DinWord) : (dinEvent w).instr = decode (.din w) := by
  by_cases h : dinEnd w = true <;> simp [dinEvent, decode, decodeDin, h, DecEvent.instr]

/-- The beat of an event is that event. -/
@[simp] theorem einEvent_beat (e : EncEvent) : einEvent e.beat = e := by
  cases e <;> simp [einEvent, EncEvent.beat]

@[simp] theorem dinEvent_beat (e : DecEvent) : dinEvent e.beat = e := by
  cases e <;> simp [dinEvent, DecEvent.beat]

end Machine

end Sys2Proof
end

