-- ==== Sys2Proof/Laws/State.lean ====
section
/-! SUPPORT. What each named operation leaves in each part of the state, one lemma a part, true by rfl. With
these no proof unfolds a record update. -/

namespace Sys2Proof.Machine

@[simp] theorem encStrobe_cfg (st : Option EncStatus) (s : State) : (encStrobe st s).cfg = s.cfg := rfl
@[simp] theorem encStrobe_plan (st : Option EncStatus) (s : State) : (encStrobe st s).plan = s.plan := rfl
@[simp] theorem encStrobe_freeIdx (st : Option EncStatus) (s : State) : (encStrobe st s).freeIdx = s.freeIdx := rfl
@[simp] theorem encStrobe_enc (st : Option EncStatus) (s : State) : (encStrobe st s).enc = { s.enc with status := st } := rfl
@[simp] theorem encStrobe_dec (st : Option EncStatus) (s : State) : (encStrobe st s).dec = s.dec := rfl

@[simp] theorem setErr_cfg (v : Bool) (s : State) : (setErr v s).cfg = s.cfg := rfl
@[simp] theorem setErr_plan (v : Bool) (s : State) : (setErr v s).plan = s.plan := rfl
@[simp] theorem setErr_freeIdx (v : Bool) (s : State) : (setErr v s).freeIdx = s.freeIdx := rfl
@[simp] theorem setErr_enc (v : Bool) (s : State) : (setErr v s).enc = { s.enc with err := v } := rfl
@[simp] theorem setErr_dec (v : Bool) (s : State) : (setErr v s).dec = s.dec := rfl

@[simp] theorem encTake_cfg (s : State) : (encTake s).cfg = s.cfg := rfl
@[simp] theorem encTake_plan (s : State) : (encTake s).plan = s.plan := rfl
@[simp] theorem encTake_freeIdx (s : State) : (encTake s).freeIdx = s.freeIdx := rfl
@[simp] theorem encTake_enc (s : State) : (encTake s).enc = { s.enc with input := s.enc.input.tail } := rfl
@[simp] theorem encTake_dec (s : State) : (encTake s).dec = s.dec := rfl

@[simp] theorem encPush_cfg (r : Option Run) (s : State) : (encPush r s).cfg = s.cfg := rfl
@[simp] theorem encPush_plan (r : Option Run) (s : State) : (encPush r s).plan = s.plan := rfl
@[simp] theorem encPush_freeIdx (r : Option Run) (s : State) : (encPush r s).freeIdx = s.freeIdx := rfl
@[simp] theorem encPush_enc (r : Option Run) (s : State) : (encPush r s).enc = { s.enc with output := s.enc.output ++ r.toList } := rfl
@[simp] theorem encPush_dec (r : Option Run) (s : State) : (encPush r s).dec = s.dec := rfl

@[simp] theorem encAccept_cfg (r : Option Run) (st : Option EncStatus) (s : State) : (encAccept r st s).cfg = s.cfg := rfl
@[simp] theorem encAccept_plan (r : Option Run) (st : Option EncStatus) (s : State) : (encAccept r st s).plan = s.plan := rfl
@[simp] theorem encAccept_freeIdx (r : Option Run) (st : Option EncStatus) (s : State) : (encAccept r st s).freeIdx = s.freeIdx := rfl
@[simp] theorem encAccept_enc (r : Option Run) (st : Option EncStatus) (s : State) : (encAccept r st s).enc = { s.enc with input := s.enc.input.tail, output := s.enc.output ++ r.toList, status := st } := rfl
@[simp] theorem encAccept_dec (r : Option Run) (st : Option EncStatus) (s : State) : (encAccept r st s).dec = s.dec := rfl

@[simp] theorem encSetRun_cfg (c n : Byte) (s : State) : (encSetRun c n s).cfg = s.cfg := rfl
@[simp] theorem encSetRun_plan (c n : Byte) (s : State) : (encSetRun c n s).plan = s.plan := rfl
@[simp] theorem encSetRun_freeIdx (c n : Byte) (s : State) : (encSetRun c n s).freeIdx = s.freeIdx := rfl
@[simp] theorem encSetRun_enc (c n : Byte) (s : State) : (encSetRun c n s).enc = { s.enc with ph := .run, cur := c, cnt := n } := rfl
@[simp] theorem encSetRun_dec (c n : Byte) (s : State) : (encSetRun c n s).dec = s.dec := rfl

@[simp] theorem encSetCnt_cfg (n : Byte) (s : State) : (encSetCnt n s).cfg = s.cfg := rfl
@[simp] theorem encSetCnt_plan (n : Byte) (s : State) : (encSetCnt n s).plan = s.plan := rfl
@[simp] theorem encSetCnt_freeIdx (n : Byte) (s : State) : (encSetCnt n s).freeIdx = s.freeIdx := rfl
@[simp] theorem encSetCnt_enc (n : Byte) (s : State) : (encSetCnt n s).enc = { s.enc with cnt := n } := rfl
@[simp] theorem encSetCnt_dec (n : Byte) (s : State) : (encSetCnt n s).dec = s.dec := rfl

@[simp] theorem encSetIdle_cfg (s : State) : (encSetIdle s).cfg = s.cfg := rfl
@[simp] theorem encSetIdle_plan (s : State) : (encSetIdle s).plan = s.plan := rfl
@[simp] theorem encSetIdle_freeIdx (s : State) : (encSetIdle s).freeIdx = s.freeIdx := rfl
@[simp] theorem encSetIdle_enc (s : State) : (encSetIdle s).enc = { s.enc with ph := .idle } := rfl
@[simp] theorem encSetIdle_dec (s : State) : (encSetIdle s).dec = s.dec := rfl

@[simp] theorem raiseEmptyInput_cfg (s : State) : (raiseEmptyInput s).cfg = s.cfg := rfl
@[simp] theorem raiseEmptyInput_plan (s : State) : (raiseEmptyInput s).plan = s.plan := rfl
@[simp] theorem raiseEmptyInput_freeIdx (s : State) : (raiseEmptyInput s).freeIdx = s.freeIdx := rfl
@[simp] theorem raiseEmptyInput_enc (s : State) : (raiseEmptyInput s).enc = { s.enc with err := true, input := s.enc.input.tail, output := s.enc.output ++ [], status := some .errEmpty } := rfl
@[simp] theorem raiseEmptyInput_dec (s : State) : (raiseEmptyInput s).dec = s.dec := rfl

@[simp] theorem decStrobe_cfg (d : Bool) (s : State) : (decStrobe d s).cfg = s.cfg := rfl
@[simp] theorem decStrobe_plan (d : Bool) (s : State) : (decStrobe d s).plan = s.plan := rfl
@[simp] theorem decStrobe_freeIdx (d : Bool) (s : State) : (decStrobe d s).freeIdx = s.freeIdx := rfl
@[simp] theorem decStrobe_enc (d : Bool) (s : State) : (decStrobe d s).enc = s.enc := rfl
@[simp] theorem decStrobe_dec (d : Bool) (s : State) : (decStrobe d s).dec = { s.dec with done := d } := rfl

@[simp] theorem decTake_cfg (s : State) : (decTake s).cfg = s.cfg := rfl
@[simp] theorem decTake_plan (s : State) : (decTake s).plan = s.plan := rfl
@[simp] theorem decTake_freeIdx (s : State) : (decTake s).freeIdx = s.freeIdx := rfl
@[simp] theorem decTake_enc (s : State) : (decTake s).enc = s.enc := rfl
@[simp] theorem decTake_dec (s : State) : (decTake s).dec = { s.dec with input := s.dec.input.tail } := rfl

@[simp] theorem decPush_cfg (b : Byte) (s : State) : (decPush b s).cfg = s.cfg := rfl
@[simp] theorem decPush_plan (b : Byte) (s : State) : (decPush b s).plan = s.plan := rfl
@[simp] theorem decPush_freeIdx (b : Byte) (s : State) : (decPush b s).freeIdx = s.freeIdx := rfl
@[simp] theorem decPush_enc (b : Byte) (s : State) : (decPush b s).enc = s.enc := rfl
@[simp] theorem decPush_dec (b : Byte) (s : State) : (decPush b s).dec = { s.dec with output := s.dec.output ++ [b] } := rfl

@[simp] theorem decAccept_cfg (d : Bool) (s : State) : (decAccept d s).cfg = s.cfg := rfl
@[simp] theorem decAccept_plan (d : Bool) (s : State) : (decAccept d s).plan = s.plan := rfl
@[simp] theorem decAccept_freeIdx (d : Bool) (s : State) : (decAccept d s).freeIdx = s.freeIdx := rfl
@[simp] theorem decAccept_enc (d : Bool) (s : State) : (decAccept d s).enc = s.enc := rfl
@[simp] theorem decAccept_dec (d : Bool) (s : State) : (decAccept d s).dec = { s.dec with input := s.dec.input.tail, done := d } := rfl

@[simp] theorem decLoad_cfg (v l : Byte) (s : State) : (decLoad v l s).cfg = s.cfg := rfl
@[simp] theorem decLoad_plan (v l : Byte) (s : State) : (decLoad v l s).plan = s.plan := rfl
@[simp] theorem decLoad_freeIdx (v l : Byte) (s : State) : (decLoad v l s).freeIdx = s.freeIdx := rfl
@[simp] theorem decLoad_enc (v l : Byte) (s : State) : (decLoad v l s).enc = s.enc := rfl
@[simp] theorem decLoad_dec (v l : Byte) (s : State) : (decLoad v l s).dec = { s.dec with val := v, rem := l } := rfl

@[simp] theorem decSetRem_cfg (l : Byte) (s : State) : (decSetRem l s).cfg = s.cfg := rfl
@[simp] theorem decSetRem_plan (l : Byte) (s : State) : (decSetRem l s).plan = s.plan := rfl
@[simp] theorem decSetRem_freeIdx (l : Byte) (s : State) : (decSetRem l s).freeIdx = s.freeIdx := rfl
@[simp] theorem decSetRem_enc (l : Byte) (s : State) : (decSetRem l s).enc = s.enc := rfl
@[simp] theorem decSetRem_dec (l : Byte) (s : State) : (decSetRem l s).dec = { s.dec with rem := l } := rfl

@[simp] theorem decWait_cfg (s : State) : (decWait s).cfg = s.cfg := rfl
@[simp] theorem decWait_plan (s : State) : (decWait s).plan = s.plan := rfl
@[simp] theorem decWait_freeIdx (s : State) : (decWait s).freeIdx = s.freeIdx := rfl
@[simp] theorem decWait_enc (s : State) : (decWait s).enc = s.enc := rfl
@[simp] theorem decWait_dec (s : State) : (decWait s).dec = { s.dec with done := false } := rfl

@[simp] theorem freeNext_cfg (s : State) : (freeNext s).cfg = s.cfg := rfl
@[simp] theorem freeNext_plan (s : State) : (freeNext s).plan = s.plan := rfl
@[simp] theorem freeNext_freeIdx (s : State) : (freeNext s).freeIdx = s.freeIdx + 1 := rfl
@[simp] theorem freeNext_enc (s : State) : (freeNext s).enc = s.enc := rfl
@[simp] theorem freeNext_dec (s : State) : (freeNext s).dec = s.dec := rfl

@[simp] theorem beginCycle_cfg (s : State) : (beginCycle s).cfg = s.cfg := rfl
@[simp] theorem beginCycle_plan (s : State) : (beginCycle s).plan = s.plan.tail := rfl
@[simp] theorem beginCycle_freeIdx (s : State) : (beginCycle s).freeIdx = s.freeIdx := rfl
@[simp] theorem beginCycle_enc (s : State) : (beginCycle s).enc = { s.enc with status := none } := rfl
@[simp] theorem beginCycle_dec (s : State) : (beginCycle s).dec = { s.dec with done := false } := rfl

@[simp] theorem resetUnits_cfg (s : State) : (resetUnits s).cfg = s.cfg := rfl
@[simp] theorem resetUnits_plan (s : State) : (resetUnits s).plan = s.plan := rfl
@[simp] theorem resetUnits_ph (s : State) : (resetUnits s).enc.ph = .idle := rfl
@[simp] theorem resetUnits_err (s : State) : (resetUnits s).enc.err = false := rfl
@[simp] theorem resetUnits_status (s : State) : (resetUnits s).enc.status = none := rfl
@[simp] theorem resetUnits_encInput (s : State) : (resetUnits s).enc.input = s.enc.input := rfl
@[simp] theorem resetUnits_encOutput (s : State) : (resetUnits s).enc.output = s.enc.output := rfl
@[simp] theorem resetUnits_rem (s : State) : (resetUnits s).dec.rem = 0#8 := rfl
@[simp] theorem resetUnits_done (s : State) : (resetUnits s).dec.done = false := rfl
@[simp] theorem resetUnits_decInput (s : State) : (resetUnits s).dec.input = s.dec.input := rfl
@[simp] theorem resetUnits_decOutput (s : State) : (resetUnits s).dec.output = s.dec.output := rfl

@[simp] theorem planHead_eager : Plan.eager.head = Pins.eager := rfl
@[simp] theorem planTail_eager : Plan.eager.tail = Plan.eager := rfl
@[simp] theorem planHead_cons (x : Pins) (p : Plan) : (p.cons x).head = x := rfl
@[simp] theorem planTail_cons (x : Pins) (p : Plan) : (p.cons x).tail = p := rfl

@[simp] theorem pinsAt_eager (k : Nat) : Plan.eager.pinsAt k = Pins.eager := rfl

/-- The coming cycle is cycle 0 of the plan. -/
@[simp] theorem pinsAt_zero (p : Plan) : p.pinsAt 0 = p.head := by
  obtain ⟨_ | ⟨x, xs⟩, h⟩ := p <;> rfl

/-- A step moves every cycle of the plan one nearer. -/
@[simp] theorem pinsAt_tail (p : Plan) (k : Nat) : p.tail.pinsAt k = p.pinsAt (k + 1) := by
  obtain ⟨_ | ⟨x, xs⟩, h⟩ := p <;> rfl

/-- A condition on the next `n + 1` cycles holds of the coming one. -/
theorem plan_head_of_lt (P : Pins → Prop) (s : State) (n : Nat) (h : ∀ k < n + 1, P (s.plan.pinsAt k)) : P s.pins := by
  simpa [State.pins] using h 0 (by omega)

/-- A condition on the next `n + 1` cycles holds, after one, of the next `n`. -/
theorem plan_tail_of_lt (P : Pins → Prop) (s t : State) (n : Nat) (h : ∀ k < n + 1, P (s.plan.pinsAt k))
    (ht : t.plan = s.plan.tail) : ∀ k < n, P (t.plan.pinsAt k) := by
  intro k hk
  rw [ht, pinsAt_tail]
  exact h (k + 1) (by omega)

/-- Two states are equal when their parts are. -/
theorem state_ext (s t : State) (hc : s.cfg = t.cfg) (he : s.enc = t.enc) (hd : s.dec = t.dec)
    (hp : s.plan = t.plan) (hf : s.freeIdx = t.freeIdx) : s = t := by
  cases s; cases t; simp_all

end Sys2Proof.Machine
end

