-- ==== Sys2Proof/Laws/Ops.lean ====
section
/-! SUPPORT. One lemma for each shared operation that says all it can do; the provers cite these and do not
unfold the operations. -/

namespace Sys2Proof.Machine

/-! ## Results -/

@[simp] theorem andThen_next (s : State) (f : State → Result) : andThen (.next s) f = f s := rfl

/-- Going on to `.next` changes nothing. -/
@[simp] theorem andThen_pure (o : Result) : andThen o .next = o := by cases o <;> rfl

@[simp] theorem runFor_zero (s : State) : runFor 0 s = .next s := rfl

/-- One more step in front. -/
theorem runFor_succ (n : Nat) (s : State) : runFor (n + 1) s = andThen (step s) (runFor n) := by
  simp only [runFor, Host.Core.run, core]
  cases step s <;> rfl

/-- A run of `m + n` steps is one of `m` and then one of `n`. -/
theorem runFor_add (m n : Nat) (s : State) : runFor (m + n) s = andThen (runFor m s) (runFor n) := by
  induction m generalizing s with
  | zero => simp
  | succ m ih =>
    rw [Nat.add_right_comm, runFor_succ, runFor_succ]
    cases step s with
    | next t => simp [ih]
    | fault r => rfl
    | refused r => rfl

/-! ## The counter (40_encoder.md R118) -/

theorem inc_of_le (n : Byte) (h : n.toNat ≤ 253) : inc n = .continueWith (n + 1#8) := by
  have e : BitVec.ofNat 8 (n.toNat + 1) = n + 1#8 := by
    apply BitVec.eq_of_toNat_eq
    simp [BitVec.toNat_add]
  have h' : n.toNat + 1 < 255 := by omega
  simp [inc, h', e]

@[simp] theorem inc_254 : inc 254#8 = .overflow := rfl

@[simp] theorem inc_255 : inc 255#8 = .unstated := rfl

/-- A counter in range is at most 253 or is 254. -/
theorem le_253_or_eq (n : Byte) (h : n.toNat ≤ 254) : n.toNat ≤ 253 ∨ n = 254#8 := by
  by_cases h' : n.toNat ≤ 253
  · exact .inl h'
  · exact .inr (BitVec.eq_of_toNat_eq (by simp; omega))

/-- Adding one to a counter of at most 253 does not wrap. -/
theorem toNat_succ_of_le (n : Byte) (h : n.toNat ≤ 253) : (n + 1#8).toNat = n.toNat + 1 := by
  rw [BitVec.toNat_add]
  have : (1#8).toNat = 1 := rfl
  omega

@[simp] theorem runDetector_iff (b c : Byte) : runDetector b c = true ↔ b = c := by
  simp [runDetector]

/-- The gated record as a list: empty only for a zero count in suppress mode (40_encoder.md R120). -/
theorem flushRecord_toList (c : Bool) (cur n : Byte) :
    (flushRecord c cur n).toList =
      if n = 0#8 ∧ c = false then [] else [{ value := cur, length := n }] := by
  by_cases h : n = 0#8 <;> cases c <;> simp [flushRecord, emitOk, h]

/-- The down-counter below a count that is not 0 (41_decoder.md R144). -/
theorem countDown_toNat (r : Byte) (h : r ≠ 0#8) : (countDown r).toNat = r.toNat - 1 := by
  have h1 : r.toNat ≠ 0 := fun h' => h (BitVec.eq_of_toNat_eq (by simpa using h'))
  have h2 := r.isLt
  rw [countDown, BitVec.toNat_sub]
  have : (1#8).toNat = 1 := rfl
  omega

/-! ## What the events can do -/

/-- Everything `ENC.BYTE` can do (40_encoder.md R110). -/
theorem execEncByte_cases (b : Byte) (s : State) :
    (s.enc.ph = .idle ∧ execEncByte b s = .next (encByteFirst b s)) ∨
    (s.enc.ph = .run ∧ b = s.enc.cur ∧ s.enc.cnt.toNat ≤ 253 ∧
      execEncByte b s = .next (encByteMatch (s.enc.cnt + 1#8) s)) ∨
    (s.enc.ph = .run ∧ b = s.enc.cur ∧ s.enc.cnt = 254#8 ∧ execEncByte b s = .next (encByteOverflow s)) ∨
    (s.enc.ph = .run ∧ b = s.enc.cur ∧ s.enc.cnt = 255#8 ∧ execEncByte b s = .next (encByteUnstated s)) ∨
    (s.enc.ph = .run ∧ b ≠ s.enc.cur ∧ execEncByte b s = .next (encByteMismatch b s)) := by
  cases hp : s.enc.ph with
  | idle => simp [execEncByte, hp]
  | run =>
    by_cases hb : b = s.enc.cur
    · have hlt := s.enc.cnt.isLt
      by_cases h1 : s.enc.cnt.toNat ≤ 253
      · simp [execEncByte, hp, hb, h1, inc_of_le _ h1, runDetector]
      · by_cases h2 : s.enc.cnt = 254#8
        · simp [execEncByte, hp, hb, h2, runDetector]
        · have h3 : s.enc.cnt = 255#8 := by
            have : s.enc.cnt.toNat ≠ 254 := fun h => h2 (BitVec.eq_of_toNat_eq (by simpa using h))
            exact BitVec.eq_of_toNat_eq (by simp; omega)
          simp [execEncByte, hp, hb, h3, runDetector]
    · simp [execEncByte, hp, hb, runDetector]

/-- Everything `ENC.END` can do (40_encoder.md R115). -/
theorem execEncEnd_cases (s : State) :
    (s.enc.ph = .run ∧ execEncEnd s = .next (encEndFlush s)) ∨
    (s.enc.ph = .idle ∧ execEncEnd s = .next (raiseEmptyInput s)) := by
  cases hp : s.enc.ph <;> simp [execEncEnd, hp]

/-- Everything `DEC.RUN` can do (41_decoder.md R140). -/
theorem execDecRun_cases (v l : Byte) (s : State) :
    (s.dec.rem = 0#8 ∧ execDecRun v l s = .next (decLoad v l (decAccept false s))) ∨
    (s.dec.rem ≠ 0#8 ∧ execDecRun v l s = .next (decWait s)) := by
  by_cases h : s.dec.rem = 0#8 <;> simp [execDecRun, h]

/-- Everything `DEC.END` can do (41_decoder.md R142). -/
theorem execDecEnd_cases (s : State) :
    (s.dec.rem = 0#8 ∧ execDecEnd s = .next (decAccept true s)) ∨
    (s.dec.rem ≠ 0#8 ∧ execDecEnd s = .next (decWait s)) := by
  by_cases h : s.dec.rem = 0#8 <;> simp [execDecEnd, h]

/-- `DEC.EMIT` while a run is expanded (41_decoder.md R141). -/
theorem decEmit_of_ne (s : State) (h : s.dec.rem ≠ 0#8) :
    decEmit s = decStrobe false (decSetRem (countDown s.dec.rem) (decPush s.dec.val s)) := by
  simp [decEmit, h]

/-- No event ends in a fault or a refusal. -/
theorem exec_next (i : Instr) (s : State) : ∃ t, exec i s = .next t := by
  cases i with
  | encByte b => rcases execEncByte_cases b s with ⟨_, e⟩ | ⟨_, _, _, e⟩ | ⟨_, _, _, e⟩ | ⟨_, _, _, e⟩ | ⟨_, _, e⟩ <;> exact ⟨_, e⟩
  | encEnd => rcases execEncEnd_cases s with ⟨_, e⟩ | ⟨_, e⟩ <;> exact ⟨_, e⟩
  | decRun v l => rcases execDecRun_cases v l s with ⟨_, e⟩ | ⟨_, e⟩ <;> exact ⟨_, e⟩
  | decEnd => rcases execDecEnd_cases s with ⟨_, e⟩ | ⟨_, e⟩ <;> exact ⟨_, e⟩

/-! ## The cycle -/

/-- A decoder event leaves all but the decoder unit as it was. -/
theorem exec_din_rest (w : DinWord) (s t : State) (h : exec (decode (.din w)) s = .next t) :
    t.enc = s.enc ∧ t.cfg = s.cfg ∧ t.plan = s.plan ∧ t.freeIdx = s.freeIdx := by
  by_cases hw : dinEnd w = true
  · rcases execDecEnd_cases s with ⟨_, e⟩ | ⟨_, e⟩ <;>
      simp only [decode, decodeDin, hw, if_true, exec, e, Host.Outcome.next.injEq] at h <;> subst h <;> simp
  · rcases execDecRun_cases (dinValue w) (dinLength w) s with ⟨_, e⟩ | ⟨_, e⟩ <;>
      simp only [decode, decodeDin, hw, Bool.false_eq_true, if_false, exec, e, Host.Outcome.next.injEq] at h <;>
      subst h <;> simp

/-- An encoder event leaves the decoder unit, the configuration and the plan as they were. -/
theorem exec_ein_rest (w : EinWord) (s t : State) (h : exec (decode (.ein w)) s = .next t) :
    t.dec = s.dec ∧ t.cfg = s.cfg ∧ t.plan = s.plan := by
  by_cases hw : einEnd w = true
  · rcases execEncEnd_cases s with ⟨_, e⟩ | ⟨_, e⟩ <;>
      simp only [decode, decodeEin, hw, if_true, exec, e, Host.Outcome.next.injEq] at h <;> subst h <;>
      simp [encEndFlush]
  · rcases execEncByte_cases (einData w) s with ⟨_, e⟩ | ⟨_, _, _, e⟩ | ⟨_, _, _, e⟩ | ⟨_, _, _, e⟩ | ⟨_, _, e⟩ <;>
      simp only [decode, decodeEin, hw, Bool.false_eq_true, if_false, exec, e, Host.Outcome.next.injEq] at h <;>
      subst h <;>
      simp [encByteFirst, encByteMatch, encByteOverflow, encByteMismatch, encByteUnstated]

/-- The cycle without reset, with both units' parts named. -/
theorem step_of_no_reset (s : State) (h : s.pins.rst = false) :
    step s = andThen (encCycle s.pins (beginCycle s)) (decCycle s.pins) := by
  simp [step, cycle, h]

/-- The cycle with reset. -/
theorem step_of_reset (s : State) (h : s.pins.rst = true) : step s = .next (resetUnits (beginCycle s)) := by
  simp [step, cycle, h]

/-- The encoder's part of a cycle: nothing, or the event of the beat at the head of ENC_IN. -/
theorem encCycle_cases (p : Pins) (s : State) :
    (encCycle p s = .next s ∧ (encOffered p s = none ∨ p.encOutReady = false)) ∨
    (∃ w, encOffered p s = some w ∧ p.encOutReady = true ∧ encCycle p s = exec (decode (.ein w)) s) := by
  cases ho : encOffered p s with
  | none => simp [encCycle, ho]
  | some w => cases hr : p.encOutReady <;> simp [encCycle, ho, hr]

/-- The decoder's part of a cycle: nothing, `DEC.EMIT`, or the event of the beat at the head of DEC_IN. -/
theorem decCycle_cases (p : Pins) (s : State) :
    (decCycle p s = .next s ∧
      ((s.dec.rem = 0#8 ∧ decOffered p s = none) ∨ (s.dec.rem ≠ 0#8 ∧ p.decOutReady = false))) ∨
    (s.dec.rem ≠ 0#8 ∧ p.decOutReady = true ∧ decCycle p s = .next (decEmit s)) ∨
    (∃ w, s.dec.rem = 0#8 ∧ decOffered p s = some w ∧ decCycle p s = exec (decode (.din w)) s) := by
  by_cases h : s.dec.rem = 0#8
  · cases ho : decOffered p s with
    | none => simp [decCycle, h, ho]
    | some w => simp [decCycle, h, ho]
  · cases hr : p.decOutReady <;> simp [decCycle, h, hr]

end Sys2Proof.Machine
end

