-- ==== Sys2Proof/Laws/PerInstr.lean ====
section
/-! SUPPORT. A law for every instruction as syntax: the word of its encoding matches its own row of the event map
(30_encoding.md R86), bits outside the operands being the row's fixed ones. -/

namespace Sys2Proof.Laws.TableRow

/-- The instruction is well formed, its encoding is a beat of its own format, and the beat under its row's
mask is its row's match. -/
def Statement (i : Instr) : Prop :=
  i.wf = true ∧
  match i, encode i with
  | .encByte _, .ein w => w &&& 0x100 = 0x000
  | .encEnd, .ein w => w &&& 0x100 = 0x100
  | .decRun _ _, .din w => w &&& 0x10000 = 0x00000
  | .decEnd, .din w => w &&& 0x10000 = 0x10000
  | _, _ => False

/-- Masking one bit that is 0 gives 0. -/
theorem and_twoPow_of_false {n : Nat} (w : BitVec n) (k : Nat) (h : w.getLsbD k = false) :
    w &&& BitVec.twoPow n k = 0 := by
  rw [BitVec.and_twoPow, h]
  simp

theorem encByte (b : Byte) : Statement (.encByte b) :=
  ⟨rfl, and_twoPow_of_false (einByte b) 8 (by simp [einByte])⟩

theorem encEnd : Statement .encEnd := ⟨rfl, rfl⟩

theorem decRun (v l : Byte) : Statement (.decRun v l) :=
  ⟨rfl, and_twoPow_of_false (dinRun v l) 16 (by simp [dinRun])⟩

theorem decEnd : Statement .decEnd := ⟨rfl, rfl⟩

end Sys2Proof.Laws.TableRow
end

