-- ==== Sys2Proof/Laws/Step.lean ====
section
/-! SUPPORT. Everything one step can do to each unit, said once: `step_move` and `step_next_move` for a cycle
without reset, `step_next_reset` for one with. Claims about the step are derived from these. -/

namespace Sys2Proof.Machine

/-- What a cycle without reset can make of the encoder and of the index of the free values. -/
inductive EncMove (s : State) : Encoder → Nat → Prop
  /-- No event is accepted. -/
  | stay (h : encTransfer s = false) : EncMove s { s.enc with status := none } s.freeIdx
  /-- `ENC.BYTE` in `IDLE`. -/
  | first (w : EinWord) (h : encTransfer s = true) (hw : encInBeat s = some w) (he : einEnd w = false)
      (hp : s.enc.ph = .idle) :
      EncMove s { s.enc with ph := .run, cur := einData w, cnt := 1#8, input := s.enc.input.tail, status := none }
        s.freeIdx
  /-- `ENC.BYTE`, a matching byte below the overflow. -/
  | more (w : EinWord) (h : encTransfer s = true) (hw : encInBeat s = some w) (he : einEnd w = false)
      (hp : s.enc.ph = .run) (hb : einData w = s.enc.cur) (hc : s.enc.cnt.toNat ≤ 253) :
      EncMove s { s.enc with cnt := s.enc.cnt + 1#8, input := s.enc.input.tail, status := none } s.freeIdx
  /-- `ENC.BYTE`, the byte that overflows. -/
  | overflow (w : EinWord) (h : encTransfer s = true) (hw : encInBeat s = some w) (he : einEnd w = false)
      (hp : s.enc.ph = .run) (hb : einData w = s.enc.cur) (hc : s.enc.cnt = 254#8) :
      EncMove s { s.enc with cnt := 0#8, input := s.enc.input.tail, status := none,
                             output := s.enc.output ++ [{ value := s.enc.cur, length := 255#8 }] } s.freeIdx
  /-- `ENC.BYTE`, a matching byte at a count no run reaches (log 4). -/
  | unstated (w : EinWord) (h : encTransfer s = true) (hw : encInBeat s = some w) (he : einEnd w = false)
      (hp : s.enc.ph = .run) (hb : einData w = s.enc.cur) (hc : s.enc.cnt = 255#8) :
      EncMove s { s.enc with cnt := Config.freeByte s.freeIdx, input := s.enc.input.tail, status := none }
        (s.freeIdx + 1)
  /-- `ENC.BYTE`, a differing byte. -/
  | mismatch (w : EinWord) (h : encTransfer s = true) (hw : encInBeat s = some w) (he : einEnd w = false)
      (hp : s.enc.ph = .run) (hb : einData w ≠ s.enc.cur) :
      EncMove s { s.enc with ph := .run, cur := einData w, cnt := 1#8, input := s.enc.input.tail, status := none,
                             output := s.enc.output ++ (flushRecord s.cfg.compatZeroRuns s.enc.cur s.enc.cnt).toList }
        s.freeIdx
  /-- `ENC.END` in `RUN`. -/
  | flush (w : EinWord) (h : encTransfer s = true) (hw : encInBeat s = some w) (he : einEnd w = true)
      (hp : s.enc.ph = .run) :
      EncMove s { s.enc with ph := .idle, input := s.enc.input.tail, status := some .done,
                             output := s.enc.output ++ (flushRecord s.cfg.compatZeroRuns s.enc.cur s.enc.cnt).toList }
        s.freeIdx
  /-- `ENC.END` in `IDLE`. -/
  | empty (w : EinWord) (h : encTransfer s = true) (hw : encInBeat s = some w) (he : einEnd w = true)
      (hp : s.enc.ph = .idle) :
      EncMove s { s.enc with err := true, input := s.enc.input.tail, status := some .errEmpty } s.freeIdx

/-- What a cycle without reset can make of the decoder. -/
inductive DecMove (s : State) : Decoder → Prop
  /-- No step of the decoder is enabled. -/
  | stay (h : decTransfer s = false) (h' : decEmits s = false) : DecMove s { s.dec with done := false }
  /-- `DEC.EMIT`. -/
  | emit (h : decEmits s = true) (hr : s.dec.rem ≠ 0#8) :
      DecMove s { s.dec with rem := countDown s.dec.rem, output := s.dec.output ++ [s.dec.val], done := false }
  /-- `DEC.RUN`. -/
  | load (w : DinWord) (h : decTransfer s = true) (hw : decInBeat s = some w) (he : dinEnd w = false)
      (hr : s.dec.rem = 0#8) :
      DecMove s { s.dec with val := dinValue w, rem := dinLength w, input := s.dec.input.tail, done := false }
  /-- `DEC.END`. -/
  | finish (w : DinWord) (h : decTransfer s = true) (hw : decInBeat s = some w) (he : dinEnd w = true)
      (hr : s.dec.rem = 0#8) :
      DecMove s { s.dec with input := s.dec.input.tail, done := true }

/-- The beat offered is the same at the start of the cycle. -/
@[simp] theorem encOffered_beginCycle (p : Pins) (s : State) : encOffered p (beginCycle s) = encOffered p s := rfl

@[simp] theorem decOffered_beginCycle (p : Pins) (s : State) : decOffered p (beginCycle s) = decOffered p s := rfl

/-- A beat offered is the head of its stream. -/
theorem encInBeat_head (s : State) (w : EinWord) (h : encInBeat s = some w) :
    s.enc.input = w :: s.enc.input.tail := by
  unfold encInBeat encOffered at h
  split at h
  · cases hi : s.enc.input with
    | nil => simp [hi] at h
    | cons x xs => simp_all
  · simp at h

theorem decInBeat_head (s : State) (w : DinWord) (h : decInBeat s = some w) :
    s.dec.input = w :: s.dec.input.tail := by
  unfold decInBeat decOffered at h
  split at h
  · cases hi : s.dec.input with
    | nil => simp [hi] at h
    | cons x xs => simp_all
  · simp at h

/-- The encoder's part of a cycle goes on, as one of the moves, and touches nothing else. -/
theorem encCycle_move (s : State) (hr : s.pins.rst = false) :
    ∃ u, encCycle s.pins (beginCycle s) = .next u ∧ EncMove s u.enc u.freeIdx ∧
      u.dec = { s.dec with done := false } ∧ u.cfg = s.cfg ∧ u.plan = s.plan.tail := by
  rcases encCycle_cases s.pins (beginCycle s) with ⟨e, h⟩ | ⟨w, ho, hy, e⟩
  · refine ⟨_, e, ?_, rfl, rfl, rfl⟩
    exact .stay (by rcases h with h | h <;> simp_all [encTransfer, encInBeat])
  · rw [encOffered_beginCycle] at ho
    have ht : encTransfer s = true := by simp [encTransfer, encInBeat, hr, ho, hy]
    by_cases hw : einEnd w = true
    · rw [show decode (.ein w) = .encEnd by simp [decode, decodeEin, hw]] at e
      rcases execEncEnd_cases (beginCycle s) with ⟨hp, e'⟩ | ⟨hp, e'⟩
      · exact ⟨_, e.trans e', by simpa [encEndFlush] using EncMove.flush w ht ho hw hp, rfl, rfl, rfl⟩
      · exact ⟨_, e.trans e', by simpa using EncMove.empty w ht ho hw hp, rfl, rfl, rfl⟩
    · have hw : einEnd w = false := by simpa using hw
      rw [show decode (.ein w) = .encByte (einData w) by simp [decode, decodeEin, hw]] at e
      rcases execEncByte_cases (einData w) (beginCycle s) with ⟨hp, e'⟩ | ⟨hp, hb, hc, e'⟩ | ⟨hp, hb, hc, e'⟩ |
        ⟨hp, hb, hc, e'⟩ | ⟨hp, hb, e'⟩
      · exact ⟨_, e.trans e', by simpa [encByteFirst] using EncMove.first w ht ho hw hp, rfl, rfl, rfl⟩
      · exact ⟨_, e.trans e', by simpa [encByteMatch] using EncMove.more w ht ho hw hp hb hc, rfl, rfl, rfl⟩
      · exact ⟨_, e.trans e',
          by simpa [encByteOverflow, overflowRecord] using EncMove.overflow w ht ho hw hp hb hc, rfl, rfl, rfl⟩
      · exact ⟨_, e.trans e',
          by simpa [encByteUnstated, freeValue] using EncMove.unstated w ht ho hw hp hb hc, rfl, rfl, rfl⟩
      · exact ⟨_, e.trans e', by simpa [encByteMismatch] using EncMove.mismatch w ht ho hw hp hb, rfl, rfl, rfl⟩

/-- The decoder's part of a cycle goes on, as one of the moves, and touches nothing else. -/
theorem decCycle_move (s u : State) (hr : s.pins.rst = false) (hu : u.dec = { s.dec with done := false }) :
    ∃ t, decCycle s.pins u = .next t ∧ DecMove s t.dec ∧
      t.enc = u.enc ∧ t.cfg = u.cfg ∧ t.plan = u.plan ∧ t.freeIdx = u.freeIdx := by
  have ho' : decOffered s.pins u = decInBeat s := by simp [decOffered, decInBeat, hu]
  rcases decCycle_cases s.pins u with ⟨e, h⟩ | ⟨h1, h2, e⟩ | ⟨w, h1, ho, e⟩
  · refine ⟨_, e, ?_, rfl, rfl, rfl, rfl⟩
    rw [hu, ho'] at h
    rw [hu]
    exact .stay (by rcases h with h | h <;> simp_all [decTransfer])
      (by rcases h with h | h <;> simp_all [decEmits])
  · rw [hu] at h1
    have he : decEmits s = true := by simp_all [decEmits]
    refine ⟨_, e, ?_, ?_⟩
    · rw [decEmit_of_ne u (by simpa [hu] using h1)]
      simpa [hu] using DecMove.emit he h1
    · rw [decEmit_of_ne u (by simpa [hu] using h1)]; simp
  · rw [hu] at h1
    rw [ho'] at ho
    have ht : decTransfer s = true := by simp_all [decTransfer]
    by_cases hw : dinEnd w = true
    · rw [show decode (.din w) = .decEnd by simp [decode, decodeDin, hw]] at e
      rcases execDecEnd_cases u with ⟨hp, e'⟩ | ⟨hp, e'⟩
      · exact ⟨_, e.trans e', by simpa [hu] using DecMove.finish w ht ho hw h1, by simp⟩
      · simp [hu, h1] at hp
    · have hw : dinEnd w = false := by simpa using hw
      rw [show decode (.din w) = .decRun (dinValue w) (dinLength w) by simp [decode, decodeDin, hw]] at e
      rcases execDecRun_cases (dinValue w) (dinLength w) u with ⟨hp, e'⟩ | ⟨hp, e'⟩
      · exact ⟨_, e.trans e', by simpa [hu] using DecMove.load w ht ho hw h1, by simp⟩
      · simp [hu, h1] at hp

/-- A cycle without reset: both units move, the configuration stays, the plan goes on. -/
theorem step_move (s : State) (hr : s.pins.rst = false) :
    ∃ t, step s = .next t ∧ EncMove s t.enc t.freeIdx ∧ DecMove s t.dec ∧ t.cfg = s.cfg ∧
      t.plan = s.plan.tail := by
  obtain ⟨u, e, he, hd, hc, hp⟩ := encCycle_move s hr
  obtain ⟨t, e', hd', h1, h2, h3, h4⟩ := decCycle_move s u hr hd
  refine ⟨t, ?_, ?_, hd', h2.trans hc, h3.trans hp⟩
  · rw [step_of_no_reset s hr, e, andThen_next, e']
  · rwa [h1, h4]

/-- The same, of a given next state. -/
theorem step_next_move (s t : State) (h : step s = .next t) (hr : s.pins.rst = false) :
    EncMove s t.enc t.freeIdx ∧ DecMove s t.dec ∧ t.cfg = s.cfg ∧ t.plan = s.plan.tail := by
  obtain ⟨u, e, h1, h2, h3, h4⟩ := step_move s hr
  rw [h, Host.Outcome.next.injEq] at e
  subst e
  exact ⟨h1, h2, h3, h4⟩

/-- A cycle with reset, of a given next state. -/
theorem step_next_reset (s t : State) (h : step s = .next t) (hr : s.pins.rst = true) :
    t = resetUnits (beginCycle s) := by
  rw [step_of_reset s hr, Host.Outcome.next.injEq] at h
  exact h.symm

/-- Every state has a next one. -/
theorem step_next (s : State) : ∃ t, step s = .next t := by
  cases hr : s.pins.rst with
  | true => exact ⟨_, step_of_reset s hr⟩
  | false =>
    obtain ⟨t, e, _⟩ := step_move s hr
    exact ⟨t, e⟩

end Sys2Proof.Machine
end

