-- ==== Sys2Proof/Tests/Slice0.lean ====
section
/-! SUPPORT. The model's own tests. Expected results are the spec's: 95_test_vectors.md and the examples of the
rules; each theorem names its source. Then, for every obligation with hypotheses, a named theorem that shows
inputs that meet them all together. -/

namespace Sys2Proof.Tests

open Sys2Proof.Machine

/-! ## Small states -/

/-- The reset state in the given mode, with the encoder in `RUN(cur, cnt)`. -/
def runState (compat : Bool) (cur cnt : Byte) : State :=
  let s := State.resetWith { compatZeroRuns := compat }
  { s with enc := { s.enc with ph := .run, cur := cur, cnt := cnt } }

/-- The reset state with the decoder in `(val, rem)`. -/
def remState (val rem : Byte) : State :=
  { State.reset with dec := { State.reset.dec with val := val, rem := rem } }

/-- A state with beats waiting on ENC_IN. -/
def offerEnc (ws : List EinWord) (s : State) : State := { s with enc := { s.enc with input := ws } }

/-- A state with beats waiting on DEC_IN. -/
def offerDec (ws : List DinWord) (s : State) : State := { s with dec := { s.dec with input := ws } }

/-- A state with the pins of the next cycles, an eager host after them. -/
def withPlan (ps : List Pins) (s : State) : State := { s with plan := { Plan.eager with coming := ps } }

/-- A state whose host drives the same pins for ever. -/
def withHeld (p : Pins) (s : State) : State := { s with plan := { coming := [], held := p } }

/-- Pins of a host that offers everything, takes nothing. -/
def stalled : Pins :=
  { rst := false, encInValid := true, encOutReady := false, decInValid := true, decOutReady := false }

/-- Pins of a reset cycle. -/
def resetPins : Pins := { Pins.eager with rst := true }

/-- The next state's test, false where there is none. -/
def after (o : Result) (f : State → Bool) : Bool :=
  match o with
  | .next s => f s
  | .fault _ => false
  | .refused _ => false

/-- Is the encoder in `RUN(cur, cnt)`? -/
def inRun (cur cnt : Byte) (s : State) : Bool := s.enc.ph == .run && s.enc.cur == cur && s.enc.cnt == cnt

/-! ## Well-formedness: each check refuses an ill-formed term -/

theorem test_wf_beat_too_wide : Format.ein.fits 0x200 = false ∧ Format.din.fits 0x20000 = false ∧
    Format.ein.fits 0x1FF = true ∧ Format.din.fits 0x1FFFF = true := by decide

theorem test_wf_call_without_end : isEncCall [.encByte 1, .encByte 2] = false ∧ isDecCall [.decRun 1 1] = false := by
  decide

theorem test_wf_call_with_early_end : isEncCall [.encEnd, .encByte 1, .encEnd] = false ∧
    isDecCall [.decEnd, .decEnd] = false := by decide

theorem test_wf_call_of_other_unit : isEncCall [.encByte 1, .decEnd] = false ∧
    isDecCall [.encByte 1, .decEnd] = false ∧ isEncCall [] = false ∧ isDecCall [] = false := by decide

theorem test_wf_call_good : isEncCall [.encByte 1, .encEnd] = true ∧ isEncCall [.encEnd] = true ∧
    isDecCall [.decRun 1 1, .decEnd] = true := by decide

/-- 20_memory.md R60, CV4. -/
theorem test_wf_odd_container : isContainer [0x61, 3, 0x62] = false ∧ isContainer [0x61, 3] = true := by decide

/-! ## Decoding: words written out from 30_encoding.md R81, R83 -/

/-- Bit 8 is 0, bits 7..0 are 0110 0001. -/
theorem test_decode_encByte : decode (.ein 0b0_0110_0001) = .encByte 0x61 := by decide

/-- Bit 8 is 1; ES17: the payload is ignored. -/
theorem test_decode_encEnd : decode (.ein 0b1_0000_0000) = .encEnd ∧ decode (.ein 0b1_1010_0101) = .encEnd := by
  decide

/-- Bit 16 is 0, bits 15..8 are 1010 1010, bits 7..0 are 0010 1101 (P5: RUN 0xAA, 45). -/
theorem test_decode_decRun : decode (.din 0b0_1010_1010_0010_1101) = .decRun 0xAA 45 := by decide

/-- Bit 16 is 1; DS8: the payload is ignored. -/
theorem test_decode_decEnd : decode (.din 0b1_0000_0000_0000_0000) = .decEnd ∧
    decode (.din 0x1BEEF) = .decEnd := by decide

/-- The raw words of the listings P1 and P3, in the opcode table's numbering; a word no beat holds. -/
theorem test_table_words : decodeTableWord 16 0x062 = some (.encByte 0x62) ∧
    decodeTableWord 16 0x100 = some .encEnd ∧ decodeTableWord 24 0x06200 = some (.decRun 0x62 0) ∧
    decodeTableWord 24 0x10000 = some .decEnd ∧ decodeTableWord 16 0x200 = none ∧
    decodeTableWord 8 0 = none := by decide

/-- 30_encoding.md R92: the beats of the listing's lines. -/
theorem test_encode : encode (.encByte 0x61) = .ein 0x061 ∧ encode .encEnd = .ein 0x100 ∧
    encode (.decRun 0x61 3) = .din 0x06103 ∧ encode .decEnd = .din 0x10000 := by decide

/-- CV5. -/
theorem test_record_word : recWord { value := 0xAA, length := 45 } = 0xAA2D := by decide

/-- The first step after reset runs the placed word (ES1, ES14, DS1, DS6). -/
theorem test_placed_words_run :
    after (step (State.reset.withFetchWord 16 0x042)) (fun t => inRun 0x42 1 t) = true ∧
    after (step (State.reset.withFetchWord 16 0x100)) (fun t => encErrEmpty t && t.enc.err) = true ∧
    after (step (State.reset.withFetchWord 24 0x04201)) (fun t => t.dec.val == 0x42 && t.dec.rem == 1) = true ∧
    after (step (State.reset.withFetchWord 24 0x10000)) (fun t => decDone t) = true := by decide

/-! ## The instructions, at most two tests each -/

/-- ES6: OVERFLOW. -/
theorem test_encByte_overflow :
    after (exec (.encByte 0x61) (runState false 0x61 254))
      (fun t => inRun 0x61 0 t && t.enc.output == [{ value := 0x61, length := 255 }]) = true := by decide

/-- ES9: MISMATCH with zero count, in both modes. -/
theorem test_encByte_mismatch_zero :
    after (exec (.encByte 0x62) (runState true 0x61 0))
      (fun t => inRun 0x62 1 t && t.enc.output == [{ value := 0x61, length := 0 }]) = true ∧
    after (exec (.encByte 0x62) (runState false 0x61 0))
      (fun t => inRun 0x62 1 t && t.enc.output == []) = true := by decide

/-- ES13: FLUSH with zero count, in both modes. -/
theorem test_encEnd_flush_zero :
    after (exec .encEnd (runState true 0x42 0))
      (fun t => t.enc.ph == .idle && encDone t && t.enc.output == [{ value := 0x42, length := 0 }]) = true ∧
    after (exec .encEnd (runState false 0x42 0))
      (fun t => t.enc.ph == .idle && encDone t && t.enc.output == []) = true := by decide

/-- ES14: EMPTY. -/
theorem test_encEnd_empty :
    after (exec .encEnd State.reset)
      (fun t => t.enc.ph == .idle && encErrEmpty t && !encDone t && t.enc.err && t.enc.output == []) = true := by decide

/-- DS4: the length 255 is taken literally. -/
theorem test_decRun_literal_length :
    after (exec (.decRun 0x07 255) State.reset)
      (fun t => t.dec.val == 0x07 && t.dec.rem == 255 && t.dec.output == []) = true := by decide

/-- DS7: offered while REM is not 0, it waits and the emit step runs instead. -/
theorem test_decRun_waits :
    after (step (offerDec [0x00901] (remState 0x07 3)))
      (fun t => t.dec.rem == 2 && t.dec.output == [0x07] && t.dec.input == [0x00901]) = true := by decide

/-- DS6. -/
theorem test_decEnd_done :
    after (exec .decEnd (remState 0x63 0)) (fun t => decDone t && t.dec.rem == 0 && t.dec.output == []) = true := by
  decide

/-- DS2: DEC.EMIT. -/
theorem test_decEmit_last : (decEmit (remState 0x42 1)).dec.rem = 0 ∧
    (decEmit (remState 0x42 1)).dec.output = [0x42] := by decide

/-! ## The cycle and the port equations -/

/-- 20_memory.md R55: without `enc_out_ready` the beat is not taken and the record is offered all the same. -/
theorem test_backpressure_holds_encoder :
    after (step (withPlan [stalled] (offerEnc [0x062] (runState true 0x61 3))))
      (fun t => t.enc.input == [0x062] && inRun 0x61 3 t && t.enc.output == []) = true ∧
    (ports (withPlan [stalled] (offerEnc [0x062] (runState true 0x61 3)))).encOut =
      some { value := 0x61, length := 3 } := by decide

/-- 70_reset_and_hazards.md R236: a host that never takes a record stops the encoder, and one that never takes a byte
the decoder inside a run, past the end of any list of pins. -/
theorem test_refusing_host_stops_units :
    after (runFor 3 (withHeld stalled (offerEnc [0x062] (offerDec [0x00901] { remState 0x07 2 with
        enc := (runState true 0x61 3).enc }))))
      (fun t => t.enc.input == [0x062] && inRun 0x61 3 t && t.enc.output == [] && !t.enc.err &&
        t.dec.rem == 2 && t.dec.input == [0x00901] && t.dec.output == []) = true := by decide

/-- 70_reset_and_hazards.md R220, R221: reset wins and drops the unflushed run; the beat on offer stays. -/
theorem test_reset_mid_call :
    after (step (withPlan [resetPins] (offerEnc [0x100] (runState true 0x61 3))))
      (fun t => t.enc.ph == .idle && t.enc.input == [0x100] && t.enc.output == [] && !encDone t) = true := by decide

/-- 60_exceptions.md R203: both units step in one cycle. -/
theorem test_both_units_step :
    after (step (offerEnc [0x042] (offerDec [0x04201] State.reset)))
      (fun t => inRun 0x42 1 t && t.dec.val == 0x42 && t.dec.rem == 1) = true := by decide

/-! ## Whole sequences -/

/-- V1, S1, S3, V18. -/
theorem test_encodeSeq_vectors (c : Bool) :
    encodeSeq c [0x61, 0x61, 0x61, 0x62] = .ok [{ value := 0x61, length := 3 }, { value := 0x62, length := 1 }] ∧
    encodeSeq c [0x42] = .ok [{ value := 0x42, length := 1 }] ∧
    encodeSeq c [1, 2, 1, 2] = .ok [⟨1, 1⟩, ⟨2, 1⟩, ⟨1, 1⟩, ⟨2, 1⟩] ∧
    encodeSeq c [] = .error .emptyInputError := by cases c <;> exact ⟨rfl, rfl, rfl, rfl⟩

/-- DV4, DV7. -/
theorem test_decodeSeq_vectors :
    decodeSeq [⟨0x07, 0⟩, ⟨0x08, 2⟩, ⟨0x09, 0⟩] = [0x08, 0x08] ∧ decodeSeq [] = [] := by decide

/-- CV1, CV2, CV4. -/
theorem test_container_vectors :
    ser [⟨0x61, 3⟩, ⟨0x62, 1⟩] = [0x61, 3, 0x62, 1] ∧
    deser [0x61, 3, 0x62, 1] = some [⟨0x61, 3⟩, ⟨0x62, 1⟩] ∧ deser [0x61, 3, 0x62] = none := by decide

/-! ## The hypotheses of the obligations can be met -/

theorem witness_DecodeOfEncodeIsIdentity : (Instr.decRun 0xFF 0xFF).wf = true := by decide

theorem witness_EveryBeatIsLegal : 511 < 512 ∧ 131071 < 131072 ∧
    (0x1FF : EinWord) &&& 0x100#9 = 0x100#9 ∧ (0x0FF : EinWord) &&& 0x100#9 = 0x000#9 ∧
    (0x1FFFF : DinWord) &&& 0x10000#17 = 0x10000#17 ∧ (0x0FFFF : DinWord) &&& 0x10000#17 = 0x00000#17 := by decide

theorem witness_RecordWordPacksValueThenLength : (0x0FFFF : DinWord).getLsbD 16 = false := by decide

theorem witness_EncByteFirstStartsRun : State.reset.enc.ph = .idle := by decide

theorem witness_EncByteMatchCounts : ∀ n : Byte, n = 0#8 ∨ n = 253#8 →
    (runState true 0x61 n).enc.ph = .run ∧ 0x61#8 = (runState true 0x61 n).enc.cur ∧
      (runState true 0x61 n).enc.cnt.toNat ≤ 253 := by
  rintro n (rfl | rfl) <;> decide

theorem witness_EncByteOverflowFlushes255 : (runState true 0x61 254).enc.ph = .run ∧
    0x61#8 = (runState true 0x61 254).enc.cur ∧ (runState true 0x61 254).enc.cnt = 254#8 := by decide

theorem witness_EncByteMismatchFlushesAndRestarts : (runState false 0x61 0).enc.ph = .run ∧
    0x62#8 ≠ (runState false 0x61 0).enc.cur := by decide

theorem witness_EncByteDispatch : (0x0FF : EinWord).getLsbD 8 = false ∧ CounterInRange State.reset ∧
    (∀ n : Byte, n = 0#8 ∨ n = 253#8 ∨ n = 254#8 →
      CounterInRange (runState true 0x61 n) ∧ (runState true 0x61 n).enc.ph = .run) := by
  refine ⟨by decide, by decide, ?_⟩
  rintro n (rfl | rfl | rfl) <;> decide

theorem witness_EncByteAtCount255Runs : (runState true 0x61 255).enc.ph = .run ∧
    0x61#8 = (runState true 0x61 255).enc.cur ∧ (runState true 0x61 255).enc.cnt = 255#8 := by decide

theorem witness_EncEndFlushesLastRun : (runState true 0x61 0).enc.ph = .run ∧
    (runState true 0x61 254).enc.ph = .run := by decide

theorem witness_EncEndOnIdleRaisesEmptyInput : State.reset.enc.ph = .idle := by decide

theorem witness_EncEndDispatch : (0x1A5 : EinWord).getLsbD 8 = true ∧ (runState true 0x61 0).enc.ph = .run ∧
    State.reset.enc.ph = .idle := by decide

theorem witness_OnlyErrorIsEmptyInput : State.reset.enc.status ≠ some .errEmpty ∧ State.reset.enc.err = false ∧
    { State.reset.enc with err := true }.err = true := by decide

theorem witness_ErrFlagIsStickyAndNeverRead : ∃ t, step (offerEnc [0x100] State.reset) = .next t := ⟨_, rfl⟩

theorem witness_EncoderEventsFrame : (∃ t, exec (.encByte 0x62) (runState true 0x61 3) = .next t) ∧
    (∃ t, exec (.encByte 0x61) (runState true 0x61 3) = .next t) ∧
    (∃ t, exec .encEnd (runState true 0x61 3) = .next t) := ⟨⟨_, rfl⟩, ⟨_, rfl⟩, ⟨_, rfl⟩⟩

theorem witness_EncoderRefinesEncStep : encAbs State.reset.enc = some .idle ∧
    encAbs (runState true 0x61 254).enc = some (.run 0x61 254) := by decide

/-- The gated flush at count 0 by an end marker and by a differing byte; a flush at count 1 is none. -/
theorem witness_CompatGatesOnlyZeroRecords :
    (let s := offerEnc [0x100] (runState true 0x61 0)
     FlushesZeroCount s ∧ (∃ t, step s = .next t) ∧
       (∃ t, step { s with cfg := { compatZeroRuns := true } } = .next t) ∧
       ∃ u, step { s with cfg := { compatZeroRuns := false } } = .next u) ∧
    FlushesZeroCount (offerEnc [0x062] (runState true 0x61 0)) ∧
    (let s := offerEnc [0x100] (runState true 0x61 1)
     ¬FlushesZeroCount s ∧ (∃ t, step { s with cfg := { compatZeroRuns := true } } = .next t) ∧
       ∃ u, step { s with cfg := { compatZeroRuns := false } } = .next u) ∧
    ¬FlushesZeroCount (offerEnc [0x061] (runState true 0x61 0)) :=
  ⟨⟨by decide, ⟨_, rfl⟩, ⟨_, rfl⟩, ⟨_, rfl⟩⟩, by decide, ⟨by decide, ⟨_, rfl⟩, ⟨_, rfl⟩⟩, by decide⟩

theorem witness_DecRunLoadsOrWaits : (0x0FFFF : DinWord).getLsbD 16 = false ∧ State.reset.dec.rem = 0#8 ∧
    (remState 0x07 1).dec.rem ≠ 0#8 := by decide

theorem witness_DecEndStrobesOrWaits : (0x1BEEF : DinWord).getLsbD 16 = true ∧ State.reset.dec.rem = 0#8 ∧
    (remState 0x07 255).dec.rem ≠ 0#8 := by decide

theorem witness_DecEmitPushesAndCountsDown : ((remState 0x07 1).pins.rst = false ∧ (remState 0x07 1).dec.rem ≠ 0#8 ∧
    (remState 0x07 1).pins.decOutReady = true) ∧ (remState 0x07 0).dec.rem = 0#8 ∧
    (∃ t, step (remState 0x07 0) = .next t) ∧
    (withPlan [stalled] (remState 0x07 1)).pins.decOutReady = false ∧
    ∃ t, step (withPlan [stalled] (remState 0x07 1)) = .next t :=
  ⟨by decide, by decide, ⟨_, rfl⟩, by decide, ⟨_, rfl⟩⟩

theorem witness_DecoderEventsFrame : (∃ t, exec (.decRun 1 2) (remState 0x07 0) = .next t) ∧
    (∃ t, exec (.decRun 1 2) (remState 0x07 3) = .next t) ∧ (∃ t, exec .decEnd (remState 0x07 0) = .next t) ∧
    (∃ t, exec .decEnd (remState 0x07 3) = .next t) ∧ (remState 0x07 3).dec.rem ≠ 0#8 :=
  ⟨⟨_, rfl⟩, ⟨_, rfl⟩, ⟨_, rfl⟩, ⟨_, rfl⟩, by decide⟩

theorem witness_DecoderRefinesDecStep :
    (∃ o, decAcceptStep (decAbs (remState 0x07 0).dec) (.run ⟨1, 2⟩) = some o) ∧
    (∃ o, decAcceptStep (decAbs (remState 0x07 0).dec) .finish = some o) ∧
    (∃ o, decEmitStep (decAbs (remState 0x07 1).dec) = some o) ∧
    (let s := withPlan [stalled] (offerDec [0x04201, 0x10000] State.reset)
     let u := offerDec [0x04201, 0x10000] State.reset
     NoResetFor 2 s ∧ NoResetFor 3 u ∧ s.dec.rem = 0#8 ∧ u.dec.rem = 0#8 ∧ s.dec.input = u.dec.input ∧
       s.dec.output = u.dec.output ∧ (∃ t, runFor 2 s = .next t) ∧ ∃ v, runFor 3 u = .next v) :=
  ⟨⟨_, rfl⟩, ⟨_, rfl⟩, ⟨_, rfl⟩, by decide, by decide, by decide, by decide, by decide, by decide, ⟨_, rfl⟩, ⟨_, rfl⟩⟩

theorem witness_DecRunExpandsInLengthSteps : EagerHost (offerDec [dinRun 7 0] State.reset) ∧
    (offerDec [dinRun 7 0] State.reset).dec.rem = 0#8 ∧
    (offerDec [dinRun 7 0] State.reset).dec.input = dinRun 7 0 :: [] := by decide

theorem witness_DecoderNeverFails : 3 = (withPlan [Pins.eager, Pins.eager] (remState 0x07 3)).dec.rem.toNat ∧
    ∀ k < 3, ((withPlan [Pins.eager, Pins.eager] (remState 0x07 3)).plan.pinsAt k).rst = false ∧
      ((withPlan [Pins.eager, Pins.eager] (remState 0x07 3)).plan.pinsAt k).decOutReady = true := by decide

/-- One state for each clause: the encoder alone, the decoder alone, both, the encoder with DEC.EMIT, DEC.EMIT
alone, neither. -/
theorem witness_StepRunsDecodedInstruction :
    (let s := offerEnc [0x042] State.reset
     encTransfer s = true ∧ encInBeat s = some 0x042 ∧ decTransfer s = false ∧ decEmits s = false) ∧
    (let s := offerDec [0x04201] State.reset
     encTransfer s = false ∧ decTransfer s = true ∧ decInBeat s = some 0x04201) ∧
    (let s := offerEnc [0x042] (offerDec [0x04201] State.reset)
     encTransfer s = true ∧ encInBeat s = some 0x042 ∧ decTransfer s = true ∧ decInBeat s = some 0x04201) ∧
    (let s := offerEnc [0x042] (remState 0x07 1)
     encTransfer s = true ∧ encInBeat s = some 0x042 ∧ decEmits s = true) ∧
    (encTransfer (remState 0x07 1) = false ∧ decEmits (remState 0x07 1) = true) ∧
    (let s := withPlan [stalled] (offerEnc [0x042] (remState 0x07 1))
     s.pins.rst = false ∧ encTransfer s = false ∧ decTransfer s = false ∧ decEmits s = false) := by decide

theorem witness_EncoderPortEquations :
    (let s := offerEnc [0x062] (runState true 0x61 3)
     s.pins.rst = false ∧ encInBeat s = some 0x062 ∧ encAbs s.enc = some (.run 0x61 3) ∧ s.pins.encOutReady = true) ∧
    encInBeat State.reset = none ∧ (withPlan [stalled] State.reset).pins.encOutReady = false ∧
    (∃ t, step (offerEnc [0x062] (runState true 0x61 3)) = .next t) := ⟨by decide, by decide, by decide, ⟨_, rfl⟩⟩

theorem witness_DecoderPortEquations :
    (let s := offerDec [0x04201] State.reset
     s.pins.rst = false ∧ decTransfer s = true ∧ (decInBeat s).map decodeDin = some (.decRun 0x42 1)) ∧
    (let s := offerDec [0x10000] State.reset
     decTransfer s = true ∧ (decInBeat s).map decodeDin = some .decEnd) ∧
    decEmits (remState 0x07 255) = true ∧ (decTransfer State.reset = false ∧ decEmits State.reset = false) ∧
    (∃ t, step (offerDec [0x04201] State.reset) = .next t) :=
  ⟨by decide, by decide, by decide, by decide, ⟨_, rfl⟩⟩

theorem witness_StrobesFollowAcceptedEnds :
    (∃ t, step (offerEnc [0x100] (runState true 0x61 3)) = .next t ∧ encDone t = true) ∧
    (∃ t, step (offerDec [0x10000] State.reset) = .next t ∧ decDone t = true) :=
  ⟨⟨_, rfl, by decide⟩, ⟨_, rfl, by decide⟩⟩

theorem witness_OutputsHeldUntilTaken :
    (∃ t, step (withPlan [stalled, stalled] (remState 0x07 3)) = .next t ∧ t.pins.rst = false ∧
      (withPlan [stalled, stalled] (remState 0x07 3)).pins.rst = false ∧
      (ports (withPlan [stalled, stalled] (remState 0x07 3))).decOutValid = true ∧
      (withPlan [stalled, stalled] (remState 0x07 3)).pins.decOutReady = false) ∧
    (let s := withPlan [stalled, stalled] (offerEnc [0x062] (runState true 0x61 3))
     ∃ t, step s = .next t ∧ s.pins.rst = false ∧ t.pins.rst = false ∧ KeepsEncOffer s ∧
      (ports s).encOut = some { value := 0x61, length := 3 } ∧ s.pins.encOutReady = false) ∧
    (stalled.rst = Pins.eager.rst ∧ stalled.encInValid = Pins.eager.encInValid) ∧
    (withPlan [resetPins] State.reset).pins.rst = true ∧
    (let s := withPlan [stalled, stalled] (offerEnc [0x062] (runState true 0x61 3))
     RefusesRecordsFor 2 s ∧ s.enc.status = none ∧ ∃ t, runFor 2 s = .next t) ∧
    (let s := withHeld stalled (offerDec [0x00901] (remState 0x07 3))
     RefusesBytesFor 3 s ∧ s.dec.rem ≠ 0#8 ∧ s.dec.done = false ∧ ∃ t, runFor 2 s = .next t) ∧
    (let s := withHeld stalled (remState 0x07 3)
     s.plan.coming = [] ∧ s.plan.held.rst = false ∧ s.plan.held.encOutReady = false ∧
       s.plan.held.decOutReady = false) :=
  ⟨⟨_, rfl, by decide, by decide, by decide, by decide⟩, ⟨_, rfl, by decide, by decide, by decide, by decide, by decide⟩,
    by decide, by decide, ⟨by decide, by decide, ⟨_, rfl⟩⟩, ⟨by decide, by decide, by decide, ⟨_, rfl⟩⟩, by decide⟩

theorem witness_ResetStateIsIdle : (withPlan [resetPins] (remState 0x07 3)).pins.rst = true := by decide

theorem witness_ResetCycleIdlesBothUnits : (withPlan [resetPins] (runState true 0x61 3)).pins.rst = true ∧
    (let s := withPlan [resetPins] { State.reset with enc := { State.reset.enc with err := true } }
     ∃ t, step s = .next t ∧ s.enc.err = true ∧ t.enc.err = false) :=
  ⟨by decide, ⟨_, rfl, by decide, by decide⟩⟩

theorem witness_StepKeepsInvariant : StateInv (offerEnc [0x061] (runState true 0x61 254)) ∧
    ∃ t, step (offerEnc [0x061] (runState true 0x61 254)) = .next t := ⟨by decide, ⟨_, rfl⟩⟩

/-- Both ways to a zero count: an overflow, and a stay. -/
theorem witness_ZeroCountComesFromOverflow :
    (∃ t, CounterInRange (offerEnc [0x061] (runState true 0x61 254)) ∧
      step (offerEnc [0x061] (runState true 0x61 254)) = .next t ∧ t.enc.ph = .run ∧ t.enc.cnt = 0#8) ∧
    (∃ t, CounterInRange (runState true 0x61 0) ∧ step (runState true 0x61 0) = .next t ∧ t.enc.ph = .run ∧
      t.enc.cnt = 0#8) :=
  ⟨⟨_, by decide, rfl, by decide, by decide⟩, ⟨_, by decide, rfl, by decide, by decide⟩⟩

theorem witness_EncoderConservesBytes :
    (let s := offerEnc [0x061] (runState false 0x61 254)
     CounterInRange s ∧ s.pins.rst = false ∧ ∃ t, step s = .next t) := ⟨by decide, by decide, ⟨_, rfl⟩⟩

theorem witness_DecoderConservesBytes : (remState 0x07 3).pins.rst = false ∧
    ∃ t, step (remState 0x07 3) = .next t := ⟨by decide, ⟨_, rfl⟩⟩

/-- Two states with the same encoder and another decoder, and the other way round. -/
theorem witness_UnitsDoNotInteract :
    (let s := State.reset
     let t := remState 0x07 3
     s.enc = t.enc ∧ s.cfg = t.cfg ∧ s.plan = t.plan ∧ s.freeIdx = t.freeIdx ∧
       (∃ u, step s = .next u) ∧ (∃ u, step t = .next u)) ∧
    (let s := State.reset
     let t := runState false 0x61 3
     s.dec = t.dec ∧ s.plan = t.plan ∧ s.freeIdx = t.freeIdx ∧ (∃ u, step s = .next u) ∧ (∃ u, step t = .next u) ∧
       CounterInRange s ∧ CounterInRange t) :=
  ⟨⟨by decide, by decide, by decide, by decide, ⟨_, rfl⟩, ⟨_, rfl⟩⟩,
    ⟨by decide, by decide, by decide, ⟨_, rfl⟩, ⟨_, rfl⟩, by decide, by decide⟩⟩

/-- Two states that differ in all three unspecified registers. -/
theorem witness_UnspecifiedRegistersUnobservable :
    (let t := { State.reset with enc := { State.reset.enc with cur := 9, cnt := 255 },
                                 dec := { State.reset.dec with val := 7 }, freeIdx := 5 }
     CounterInRange State.reset ∧ Indistinguishable State.reset t ∧ ∃ s', step State.reset = .next s') :=
  ⟨by decide, ⟨by decide, by decide, by decide, by decide⟩, ⟨_, rfl⟩⟩

theorem witness_EncoderIsAFunctionOfAcceptedEvents :
    (let s := withPlan [stalled] (offerEnc [0x042, 0x100] State.reset)
     NoResetFor 2 s ∧ encAbs s.enc = some .idle ∧ ∃ t, runFor 2 s = .next t) := ⟨by decide, by decide, ⟨_, rfl⟩⟩

theorem witness_DecoderEmitsRunsInOrder :
    (let s := withPlan [stalled] (offerDec [0x04201, 0x10000] State.reset)
     NoResetFor 2 s ∧ s.dec.rem = 0#8 ∧ ∃ t, runFor 2 s = .next t) := ⟨by decide, by decide, ⟨_, rfl⟩⟩

/-- A non-empty call and the empty one. -/
theorem witness_EncoderComputesEncode : ∀ d : List Byte, d = [] ∨ d = [0x42] →
    (let s := offerEnc (encBeats (seqEvents d) ++ [0x007]) State.reset
     EagerHost s ∧ s.enc.ph = .idle ∧ s.enc.input = encBeats (seqEvents d) ++ [0x007]) := by
  rintro d (rfl | rfl) <;> decide

theorem witness_DecoderComputesDecode :
    (let s := offerDec (decBeats (runsEvents [⟨0x61, 3⟩]) ++ [0x10000]) State.reset
     EagerHost s ∧ s.dec.rem = 0#8 ∧ s.dec.input = decBeats (runsEvents [⟨0x61, 3⟩]) ++ [0x10000]) := by decide

theorem witness_MachineRoundTrip :
    (let s := offerEnc (encBeats (seqEvents [0x61, 0x61])) State.reset
     ([0x61, 0x61] : List Byte) ≠ [] ∧ EagerHost s ∧ BothIdle s ∧ s.enc.output = [] ∧
       s.enc.input = encBeats (seqEvents [0x61, 0x61]) ∧ s.dec.input = []) := by decide

theorem witness_CallWithoutEndIsNeverOver :
    (let s := offerEnc [0x001, 0x001] State.reset
     NoResetFor 2 s ∧ (∀ w ∈ s.enc.input, einEnd w = false) ∧ s.enc.status = none ∧ CounterInRange s ∧
       ∃ t, runFor 2 s = .next t ∧ t.enc.input ≠ s.enc.input) ∧ (runState true 0x61 3).enc.ph = .run :=
  ⟨⟨by decide, by decide, by decide, by decide, ⟨_, rfl, by decide⟩⟩, by decide⟩

theorem witness_EmptyCalls : State.reset.enc.ph = .idle ∧ State.reset.dec.rem = 0#8 := by decide

theorem witness_DecodeOfEncodeSeq : ([0x42] : List Byte) ≠ [] := by decide

theorem witness_EncodeIsPiecewise : (⟨0x42, 1⟩ : Stretch) ∈ stretches [0x42] ∧ ([0x42] : List Byte) ≠ [] := by decide

theorem witness_RestrictedRoundTrip : ([0x42, 0x42, 0x43] : List Byte) ≠ [] ∧
    ∀ x ∈ stretches [0x42, 0x42, 0x43], x.size < 255 := by decide

theorem witness_RunCountAtMostLength : (∃ rs, encodeSeq true [0x42, 0x42] = .ok rs) ∧
    ([0x42] : List Byte) ≠ [] ∧ ([0x42] : List Byte).IsChain (· ≠ ·) := ⟨⟨_, rfl⟩, by decide, by decide⟩

theorem witness_ExactRunCounts : 1 ≤ 1 ∧ ∃ rs, encodeSeq true [0x42, 0x43] = .ok rs := ⟨by decide, ⟨_, rfl⟩⟩

theorem witness_AlternatingInputExpands : ([1, 2, 1, 2] : List Byte) ≠ [] ∧
    ([1, 2, 1, 2] : List Byte).IsChain (· ≠ ·) ∧ ∃ rs, encodeSeq true [1, 2, 1, 2] = .ok rs :=
  ⟨by decide, by decide, ⟨_, rfl⟩⟩

theorem witness_SuppressDropsZeroRecords : (∃ rc, encodeSeq true [0x42] = .ok rc) ∧
    ∃ rs, encodeSeq false [0x42] = .ok rs := ⟨⟨_, rfl⟩, ⟨_, rfl⟩⟩

theorem witness_EqualNeighboursOnlyAfterOverflow : ∃ rs, encodeSeq true [0x42, 0x42, 0x43] = .ok rs := ⟨_, rfl⟩

/-- Ranges that meet in equal bytes. -/
theorem witness_ConcatenatedEncodingsDecode : (∃ r1, encodeSeq true [7] = .ok r1) ∧
    (∃ r2, encodeSeq true [7, 8] = .ok r2) ∧ ([7] : List Byte).getLast? = ([7, 8] : List Byte).head? :=
  ⟨⟨_, rfl⟩, ⟨_, rfl⟩, by decide⟩

theorem witness_ContainerRoundTrip : deser [0x61, 3] = some [⟨0x61, 3⟩] ∧ ([0x42] : List Byte) ≠ [] := by decide

end Sys2Proof.Tests
end

section
/-! PROOF. Reset (10_state.md R36): idle units look the same whatever their unspecified registers hold, and the
output pins while `rst = 1`. -/

namespace Sys2Proof.Machine

/-! ## Idle units -/

theorem encObservable_of_idle (e : Encoder) (h : e.ph = .idle) :
    encObservable e = { e with cur := 0#8, cnt := 0#8 } := by
  simp [encObservable, h]

theorem decObservable_of_rem_zero (d : Decoder) (h : d.rem = 0#8) : decObservable d = { d with val := 0#8 } := by
  simp [decObservable, h]

theorem encAbs_of_idle (e : Encoder) (h : e.ph = .idle) : encAbs e = some .idle := by
  simp [encAbs, h]

/-- With both units idle, `CUR`, `CNT` and `VAL` are among the registers no rule reads. -/
theorem indistinguishable_of_bothIdle (s : State) (h : BothIdle s) (cur cnt val : Byte) :
    Indistinguishable s
      { s with enc := { s.enc with cur := cur, cnt := cnt }, dec := { s.dec with val := val } } := by
  obtain ⟨hph, hrem⟩ := h
  refine ⟨rfl, rfl, ?_, ?_⟩
  · simp [encObservable_of_idle, hph]
  · simp [decObservable_of_rem_zero, hrem]

theorem bothIdle_resetWith (cfg : Config) : BothIdle (State.resetWith cfg) := ⟨rfl, rfl⟩

/-! ## The pins under reset -/

theorem encTakesEnd_of_reset (s : State) (h : s.pins.rst = true) : encTakesEnd s = false := by
  simp [encTakesEnd, encTransfer, h]

theorem decTakesEnd_of_reset (s : State) (h : s.pins.rst = true) : decTakesEnd s = false := by
  simp [decTakesEnd, decTransfer, h]

/-- While `rst = 1` no pin but the level `enc_err` is driven (20_memory.md R54, R56). -/
theorem ports_of_reset (s : State) (h : s.pins.rst = true) :
    ports s = { encInReady := false, encOut := none, encDone := false, encErrEmpty := false, encErr := s.enc.err,
                decInReady := false, decOutValid := false, decOutData := none, decDone := false } := by
  simp [ports, h, encTakesEnd_of_reset, decTakesEnd_of_reset]

/-! ## The reset state -/

/-- Settles O33: both units of the reset state are idle, so its unspecified registers cannot be seen, and under
reset the port equations give 0. -/
theorem resetStateIsIdle : Obligations.ResetStateIsIdle := by
  refine ⟨⟨Config.reference, rfl⟩, fun cfg cur cnt val => ?_, fun s h => ?_⟩
  · obtain ⟨hph, hrem⟩ := bothIdle_resetWith cfg
    exact ⟨rfl, hph, rfl, hrem, encAbs_of_idle _ hph, rfl, rfl, rfl,
      indistinguishable_of_bothIdle _ ⟨hph, hrem⟩ cur cnt val⟩
  · simp [ports_of_reset s h]

end Sys2Proof.Machine
end

section
/-! PROOF. The host's side of the encoding (20_memory.md R58, R59): the container's bytes and the record word. -/

namespace Sys2Proof.Machine

/-! ## The container -/

theorem length_ser (rs : List Run) : (ser rs).length = 2 * rs.length := by
  induction rs with
  | nil => rfl
  | cons r rs ih => simp only [ser, List.length_cons, ih]; omega

/-- Byte `2k` and byte `2k + 1` of the container belong to run `k`, and where there is no run there is no byte. -/
theorem getElem?_ser (rs : List Run) (k : Nat) :
    (ser rs)[2 * k]? = (rs[k]?).map Run.value ∧ (ser rs)[2 * k + 1]? = (rs[k]?).map Run.length := by
  induction rs generalizing k with
  | nil => simp [ser]
  | cons r rs ih =>
    cases k with
    | zero => simp [ser]
    | succ k => simpa [ser, Nat.mul_succ] using ih k

/-- Settles O59, by induction on the runs: each puts its two bytes before those of the rest. -/
theorem containerByteOrder : Obligations.ContainerByteOrder :=
  fun rs => ⟨length_ser rs, getElem?_ser rs⟩

/-! ## The record word -/

theorem extractLsb'_value_recWord (r : Run) : (recWord r).extractLsb' 8 8 = r.value := by
  rw [recWord, BitVec.setWidth_eq, BitVec.extractLsb'_append_eq_left]

theorem extractLsb'_length_recWord (r : Run) : (recWord r).extractLsb' 0 8 = r.length := by
  rw [recWord, BitVec.setWidth_eq, BitVec.extractLsb'_append_eq_right]

/-- Unpacking loses nothing of a run. -/
theorem recOfWord_recWord (r : Run) : recOfWord (recWord r) = r := by
  rw [recOfWord, extractLsb'_value_recWord, extractLsb'_length_recWord]

/-- Packing loses nothing of a word: its two bytes side by side are the word. -/
theorem recWord_recOfWord (w : RecWord) : recWord (recOfWord w) = w := by
  rw [recWord, recOfWord, BitVec.setWidth_eq]
  exact BitVec.extractLsb'_append_extractLsb' (w := 8) (len := 8)

/-- The operand fields of a DIN beat are those of the record word in its bits 15..0 (30_encoding.md R83). -/
theorem recOfWord_dinBeat (w : DinWord) :
    recOfWord (w.extractLsb' 0 16) = { value := dinValue w, length := dinLength w } := by
  simp only [recOfWord, dinValue, dinLength, BitVec.extractLsb'_extractLsb'_of_le, Nat.reduceAdd, Nat.reduceLeDiff]

/-- Bits 15..0 of the beat of `DEC.RUN` are the record's word (30_encoding.md R83). -/
theorem extractLsb'_dinRun (r : Run) : (dinRun r.value r.length).extractLsb' 0 16 = recWord r := by
  rw [dinRun, BitVec.extractLsb'_setWidth_of_le (by omega), recWord, BitVec.setWidth_eq]
  exact BitVec.extractLsb'_eq_self

/-- Settles O4: the fields of the packed word, and the same word inside a DIN beat read and written. -/
theorem recordWordPacksValueThenLength : Obligations.RecordWordPacksValueThenLength := by
  refine ⟨fun r => ?_, recWord_recOfWord, fun w hw => ?_, fun r => ⟨_, rfl, extractLsb'_dinRun r⟩⟩
  · have hv := extractLsb'_value_recWord r
    have hl := extractLsb'_length_recWord r
    exact ⟨hv, hl, recOfWord_recWord r, by rw [hv, hl]; rfl⟩
  · have he : dinEnd w = false := hw
    simp [decode, decodeDin, he, recOfWord_dinBeat]

end Sys2Proof.Machine
end

section
/-! PROOF. The decoder's ports (20_memory.md R56): what a move of the decoder makes of its registers, told by the
port functions of the cycle. -/

namespace Sys2Proof.Machine

/-- An accepted beat and an emit step ask for opposite values of `REM`. -/
theorem not_decTransfer_and_decEmits (s : State) : ¬(decTransfer s = true ∧ decEmits s = true) := by
  rintro ⟨ht, he⟩
  have hz : s.dec.rem = 0#8 := by simp_all [decTransfer]
  have hn : s.dec.rem ≠ 0#8 := by simp_all [decEmits]
  exact hn hz

theorem decodeDin_of_end {w : DinWord} (h : dinEnd w = true) : decodeDin w = .decEnd := by
  simp [decodeDin, h]

theorem decodeDin_of_run {w : DinWord} (h : dinEnd w = false) :
    decodeDin w = .decRun (dinValue w) (dinLength w) := by
  simp [decodeDin, h]

section
variable {s : State} {d : Decoder}

/-- An accepted `DEC.RUN` loads the run. -/
theorem DecMove.eq_of_decRun (m : DecMove s d) {v l : Byte} (ht : decTransfer s = true)
    (hi : (decInBeat s).map decodeDin = some (.decRun v l)) :
    d = { s.dec with val := v, rem := l, input := s.dec.input.tail, done := false } := by
  cases m with
  | stay h _ => simp [ht] at h
  | emit h _ => exact absurd ⟨ht, h⟩ (not_decTransfer_and_decEmits s)
  | load w _ hw he _ =>
    obtain ⟨rfl, rfl⟩ : dinValue w = v ∧ dinLength w = l := by simpa [hw, decodeDin_of_run he] using hi
    rfl
  | finish w _ hw he _ => simp [hw, decodeDin_of_end he] at hi

/-- An accepted `DEC.END` asserts the strobe and changes no register. -/
theorem DecMove.eq_of_decEnd (m : DecMove s d) (ht : decTransfer s = true)
    (hi : (decInBeat s).map decodeDin = some .decEnd) :
    d = { s.dec with input := s.dec.input.tail, done := true } := by
  cases m with
  | stay h _ => simp [ht] at h
  | emit h _ => exact absurd ⟨ht, h⟩ (not_decTransfer_and_decEmits s)
  | load w _ hw he _ => simp [hw, decodeDin_of_run he] at hi
  | finish => rfl

theorem DecMove.eq_of_emits (m : DecMove s d) (he : decEmits s = true) :
    s.dec.rem ≠ 0#8 ∧
      d = { s.dec with rem := countDown s.dec.rem, output := s.dec.output ++ [s.dec.val], done := false } := by
  cases m with
  | stay _ h => simp [he] at h
  | emit _ hr => exact ⟨hr, rfl⟩
  | load _ h | finish _ h => exact absurd ⟨h, he⟩ (not_decTransfer_and_decEmits s)

theorem DecMove.eq_of_none_enabled (m : DecMove s d) (ht : decTransfer s = false) (he : decEmits s = false) :
    d = { s.dec with done := false } := by
  cases m with
  | stay => rfl
  | emit h => simp [he] at h
  | load _ h | finish _ h => simp [ht] at h

end

/-- Counting down takes exactly one. -/
theorem countDown_toNat_succ (r : Byte) (h : r ≠ 0#8) : (countDown r).toNat + 1 = r.toNat := by
  have hpos : r.toNat ≠ 0 := fun h' => h (BitVec.eq_of_toNat_eq (by simpa using h'))
  rw [countDown_toNat r h]
  omega

/-- Settles O30: the port equations are the definition's; each enabled step is one move of the decoder. -/
theorem decoderPortEquations : Obligations.DecoderPortEquations := by
  intro s t hr h
  obtain ⟨-, m, -, -⟩ := step_next_move s t h hr
  refine ⟨by simp [ports, hr], by simp [ports, hr], by simp [ports, hr], not_decTransfer_and_decEmits s,
    fun v l => m.eq_of_decRun, m.eq_of_decEnd, fun he => ?_, m.eq_of_none_enabled⟩
  obtain ⟨hn, hd⟩ := m.eq_of_emits he
  rw [hd]
  exact ⟨by simp [ports, hr], countDown_toNat_succ _ hn, rfl, rfl⟩

end Sys2Proof.Machine
end

section
/-! PROOF. The encoder's ports (20_memory.md R55): the combinational record is that of `enc_step`, and so is what an
accepted event makes of the registers (40_encoder.md R121). -/

namespace Sys2Proof.Machine

/-! ## Registers with an abstract state -/

theorem encAbs_of_run {e : Encoder} {cur : Byte} {k : Fin 255} (hp : e.ph = .run) (hcur : e.cur = cur)
    (hk : e.cnt.toNat = k.val) : encAbs e = some (.run cur k) := by
  simp [encAbs, hp, hcur, hk]

theorem eq_idle_of_encAbs {e : Encoder} {a : EncState} (h : encAbs e = some a) (hp : e.ph = .idle) : a = .idle := by
  rw [encAbs_of_idle e hp, Option.some.injEq] at h
  exact h.symm

theorem eq_run_of_encAbs {e : Encoder} {a : EncState} (h : encAbs e = some a) (hp : e.ph = .run) :
    ∃ hc : e.cnt.toNat < 255, a = .run e.cur ⟨e.cnt.toNat, hc⟩ := by
  by_cases hc : e.cnt.toNat < 255
  · rw [encAbs_of_run (k := ⟨_, hc⟩) hp rfl rfl, Option.some.injEq] at h
    exact ⟨hc, h.symm⟩
  · simp [encAbs, hp, hc] at h

/-- The gate on the abstract counter is the gate on the register (40_encoder.md R120). -/
theorem gatedRecord_eq_flushRecord (c : Bool) (cur n : Byte) (h : n.toNat < 255) :
    gatedRecord c cur ⟨n.toNat, h⟩ = flushRecord c cur n := by
  have hz : n.toNat = 0 ↔ n = 0#8 := ⟨fun h' => BitVec.eq_of_toNat_eq (by simpa using h'), by rintro rfl; rfl⟩
  simp [gatedRecord, flushRecord, emitOk, hz]

/-! ## `enc_step` on the registers' values, a case each (40_encoder.md R121) -/

section
variable (c : Bool) (cur n : Byte) (h : n.toNat < 255)

theorem encStep_match (hn : n.toNat ≤ 253) :
    encStep c (.run cur ⟨n.toNat, h⟩) (.byte cur) =
      { next := .run cur ⟨(n + 1#8).toNat, by rw [toNat_succ_of_le n hn]; omega⟩,
        record := none, status := none } := by
  simp [encStep, toNat_succ_of_le n hn, show n.toNat + 1 < 255 by omega]

theorem encStep_overflow (hn : n.toNat = 254) :
    encStep c (.run cur ⟨n.toNat, h⟩) (.byte cur) =
      { next := .run cur 0, record := some (overflowRecord cur), status := none } := by
  simp [encStep, hn, overflowRecord]

theorem encStep_mismatch {b : Byte} (hb : b ≠ cur) :
    encStep c (.run cur ⟨n.toNat, h⟩) (.byte b) =
      { next := .run b 1, record := flushRecord c cur n, status := none } := by
  simp [encStep, hb, gatedRecord_eq_flushRecord]

theorem encStep_flush :
    encStep c (.run cur ⟨n.toNat, h⟩) .finish =
      { next := .idle, record := flushRecord c cur n, status := some .done } := by
  simp [encStep, gatedRecord_eq_flushRecord]

end

theorem einEvent_of_end {w : EinWord} (h : einEnd w = true) : einEvent w = .finish := by
  simp [einEvent, h]

theorem einEvent_of_byte {w : EinWord} (h : einEnd w = false) : einEvent w = .byte (einData w) := by
  simp [einEvent, h]

/-! ## The record offered -/

/-- `enc_emit` of R55 is the record of `enc_step`. -/
theorem encEmit_eq_record (c : Bool) (e : Encoder) (w : EinWord) (a : EncState) (ha : encAbs e = some a) :
    encEmit c e w = (encStep c a (einEvent w)).record := by
  cases hp : e.ph with
  | idle =>
    rw [eq_idle_of_encAbs ha hp]
    cases einEvent w <;> simp [encEmit, hp, encStep]
  | run =>
    obtain ⟨hc, rfl⟩ := eq_run_of_encAbs ha hp
    cases he : einEnd w with
    | true => simp [encEmit, hp, he, einEvent_of_end he, encStep_flush]
    | false =>
      rw [einEvent_of_byte he]
      by_cases hb : einData w = e.cur
      · rw [hb]
        by_cases hn : e.cnt.toNat = 254
        · rw [encStep_overflow c e.cur e.cnt hc hn]
          simp [encEmit, hp, he, hb, hn]
        · rw [encStep_match c e.cur e.cnt hc (by omega)]
          have hm : e.cnt.toNat + 1 ≠ Config.maxRun := fun h => hn (Nat.succ.inj h)
          simp [encEmit, hp, he, hb, hm]
      · rw [encStep_mismatch c e.cur e.cnt hc hb]
        simp [encEmit, hp, he, hb]

/-- Without reset, ENC_OUT carries the record of `enc_step` for the beat on offer. -/
theorem ports_encOut_eq_record (s : State) (w : EinWord) (a : EncState) (hr : s.pins.rst = false)
    (hw : encInBeat s = some w) (ha : encAbs s.enc = some a) :
    (ports s).encOut = (encStep s.cfg.compatZeroRuns a (einEvent w)).record := by
  simp [ports, hr, encOutBeat, hw, encEmit_eq_record _ _ _ _ ha]

/-! ## The accepted event -/

/-- A cycle that accepts a beat takes it, follows `enc_step` and pushes its record. -/
theorem EncMove.refines_encStep {s : State} {e : Encoder} {n : Nat} (m : EncMove s e n) {w : EinWord} {a : EncState}
    (ht : encTransfer s = true) (hw : encInBeat s = some w) (ha : encAbs s.enc = some a) :
    e.input = s.enc.input.tail ∧ encAbs e = some (encStep s.cfg.compatZeroRuns a (einEvent w)).next ∧
      e.output = s.enc.output ++ (encStep s.cfg.compatZeroRuns a (einEvent w)).record.toList := by
  have hinj {x : EinWord} (hx : encInBeat s = some x) : w = x := Option.some.inj (hw.symm.trans hx)
  cases m with
  | stay h => simp [ht] at h
  | first x _ hx he hp =>
    obtain rfl := hinj hx
    rw [eq_idle_of_encAbs ha hp, einEvent_of_byte he]
    exact ⟨rfl, encAbs_of_run rfl rfl rfl, by simp [encStep]⟩
  | more x _ hx he hp hb hc =>
    obtain rfl := hinj hx
    obtain ⟨hlt, rfl⟩ := eq_run_of_encAbs ha hp
    rw [einEvent_of_byte he, hb, encStep_match _ _ _ hlt hc]
    exact ⟨rfl, encAbs_of_run hp rfl rfl, by simp⟩
  | overflow x _ hx he hp hb hc =>
    obtain rfl := hinj hx
    obtain ⟨hlt, rfl⟩ := eq_run_of_encAbs ha hp
    rw [einEvent_of_byte he, hb, encStep_overflow _ _ _ hlt (by simp [hc])]
    exact ⟨rfl, encAbs_of_run hp rfl rfl, rfl⟩
  | unstated x _ _ _ hp _ hc =>
    obtain ⟨hlt, -⟩ := eq_run_of_encAbs ha hp
    simp [hc] at hlt
  | mismatch x _ hx he hp hb =>
    obtain rfl := hinj hx
    obtain ⟨hlt, rfl⟩ := eq_run_of_encAbs ha hp
    rw [einEvent_of_byte he, encStep_mismatch _ _ _ hlt hb]
    exact ⟨rfl, encAbs_of_run rfl rfl rfl, rfl⟩
  | flush x _ hx he hp =>
    obtain rfl := hinj hx
    obtain ⟨hlt, rfl⟩ := eq_run_of_encAbs ha hp
    rw [einEvent_of_end he, encStep_flush]
    exact ⟨rfl, encAbs_of_idle _ rfl, rfl⟩
  | empty x _ hx he hp =>
    obtain rfl := hinj hx
    rw [eq_idle_of_encAbs ha hp, einEvent_of_end he]
    exact ⟨rfl, encAbs_of_idle _ hp, by simp [encStep]⟩

/-- With no event accepted the encoder keeps its state. -/
theorem EncMove.eq_of_no_transfer {s : State} {e : Encoder} {n : Nat} (m : EncMove s e n)
    (ht : encTransfer s = false) : e = { s.enc with status := none } := by
  cases m with
  | stay => rfl
  | first _ h | more _ h | overflow _ h | unstated _ h | mismatch _ h | flush _ h | empty _ h => simp [ht] at h

/-- Settles O29: the ports offer the record of `enc_step`, and an accepted event is one move of the encoder, which
follows `enc_step`. -/
theorem encoderPortEquations : Obligations.EncoderPortEquations := by
  intro s t hr h
  obtain ⟨m, -, -, -⟩ := step_next_move s t h hr
  refine ⟨by simp [ports, hr], fun hn => by simp [ports, encOutBeat, hn], fun hno => ?_, fun w a hw ha => ?_⟩
  · exact m.eq_of_no_transfer (by rcases hno with hno | hno <;> simp [encTransfer, hno])
  · have hrec := ports_encOut_eq_record s w a hr hw ha
    refine ⟨hrec, fun hy => ?_⟩
    have ht : encTransfer s = true := by simp [encTransfer, hr, hw, hy]
    rw [hrec]
    exact m.refines_encStep ht hw ha

end Sys2Proof.Machine
end

section
/-! PROOF. The strobes (20_memory.md R57): each is recorded by the step exactly when its end marker is accepted. -/

namespace Sys2Proof.Machine

theorem encTakesEnd_of_beat {s : State} {w : EinWord} (ht : encTransfer s = true) (hw : encInBeat s = some w) :
    encTakesEnd s = einEnd w := by
  simp [encTakesEnd, ht, hw]

theorem decTakesEnd_of_beat {s : State} {w : DinWord} (ht : decTransfer s = true) (hw : decInBeat s = some w) :
    decTakesEnd s = dinEnd w := by
  simp [decTakesEnd, ht, hw]

/-- A move of the encoder asserts a strobe exactly with an accepted end marker, and the phase says which. -/
theorem EncMove.status_eq {s : State} {e : Encoder} {n : Nat} (m : EncMove s e n) :
    e.status = if encTakesEnd s then some (if s.enc.ph = .run then .done else .errEmpty) else none := by
  cases m with
  | stay h => simp [encTakesEnd, h]
  | first _ ht hw he | more _ ht hw he | overflow _ ht hw he | unstated _ ht hw he | mismatch _ ht hw he =>
    simp [encTakesEnd_of_beat ht hw, he]
  | flush _ ht hw he hp | empty _ ht hw he hp => simp [encTakesEnd_of_beat ht hw, he, hp]

/-- A move of the decoder asserts its strobe exactly with an accepted end marker. -/
theorem DecMove.done_eq {s : State} {d : Decoder} (m : DecMove s d) : d.done = decTakesEnd s := by
  cases m with
  | stay h _ => simp [decTakesEnd, h]
  | emit h _ =>
    have ht : decTransfer s = false := by simpa [h] using not_decTransfer_and_decEmits s
    simp [decTakesEnd, ht]
  | load _ ht hw he | finish _ ht hw he => simp [decTakesEnd_of_beat ht hw, he]

/-- The move that asserts `enc_done` pushes the call's final record, if the gate allows. -/
theorem EncMove.output_of_done {s : State} {e : Encoder} {n : Nat} (m : EncMove s e n) (hd : e.status = some .done) :
    e.output = s.enc.output ++ (flushRecord s.cfg.compatZeroRuns s.enc.cur s.enc.cnt).toList := by
  cases m with
  | flush => rfl
  | stay | first | more | overflow | unstated | mismatch | empty => simp at hd

/-- The move that asserts `dec_done` moves no byte, and the decoder was idle. -/
theorem DecMove.output_of_done {s : State} {d : Decoder} (m : DecMove s d) (hd : d.done = true) :
    s.dec.rem = 0#8 ∧ d.output = s.dec.output := by
  cases m with
  | finish _ _ _ _ hr => exact ⟨hr, rfl⟩
  | stay | emit | load => simp at hd

section
variable {s t : State}

/-- The encoder's strobes after any step, reset included. -/
theorem step_encStatus (h : step s = .next t) :
    t.enc.status = if encTakesEnd s then some (if s.enc.ph = .run then .done else .errEmpty) else none := by
  cases hr : s.pins.rst with
  | true => simp [step_next_reset s t h hr, encTakesEnd_of_reset s hr]
  | false => exact (step_next_move s t h hr).1.status_eq

/-- The decoder's strobe after any step, reset included. -/
theorem step_decDone (h : step s = .next t) : decDone t = decTakesEnd s := by
  cases hr : s.pins.rst with
  | true => simp [decDone, step_next_reset s t h hr, decTakesEnd_of_reset s hr]
  | false => exact (step_next_move s t h hr).2.1.done_eq

theorem step_encDone (h : step s = .next t) : encDone t = (encTakesEnd s && s.enc.ph == .run) := by
  cases he : encTakesEnd s <;> cases hp : s.enc.ph <;> simp [encDone, step_encStatus h, he, hp]

theorem step_encErrEmpty (h : step s = .next t) : encErrEmpty t = (encTakesEnd s && s.enc.ph == .idle) := by
  cases he : encTakesEnd s <;> cases hp : s.enc.ph <;> simp [encErrEmpty, step_encStatus h, he, hp]

/-- A strobe after the step means that the cycle was without reset. -/
theorem no_reset_of_encDone (h : step s = .next t) (hd : encDone t = true) : s.pins.rst = false := by
  by_contra hr
  simp [step_encDone h, encTakesEnd_of_reset s (by simpa using hr)] at hd

theorem no_reset_of_decDone (h : step s = .next t) (hd : decDone t = true) : s.pins.rst = false := by
  by_contra hr
  simp [step_decDone h, decTakesEnd_of_reset s (by simpa using hr)] at hd

end

/-- Settles O31: the recorded strobes are those of the accepted end markers, and the moves that assert a "done" say
what is delivered with it. -/
theorem strobesFollowAcceptedEnds : Obligations.StrobesFollowAcceptedEnds := by
  intro s t h
  have hdone := step_encDone h
  have herr := step_encErrEmpty h
  have hdec := step_decDone h
  refine ⟨hdone, herr, hdec, by simp [hdone], by simp [herr], by rw [hdec], fun hd => ?_, fun hd => ?_⟩
  · obtain ⟨m, -, -, -⟩ := step_next_move s t h (no_reset_of_encDone h hd)
    rw [← flushRecord_toList]
    exact m.output_of_done (by simpa [encDone] using hd)
  · obtain ⟨-, m, -, -⟩ := step_next_move s t h (no_reset_of_decDone h hd)
    exact m.output_of_done hd

end Sys2Proof.Machine
end

section
/-! PROOF. Every pattern of EIN and of DIN is an event's beat (30_encoding.md R88): the mask clauses speak of the end
bit, and a beat whose end bit is 0 is the beat of its own fields. -/

namespace Sys2Proof.Machine

/-! ## Raw patterns -/

theorem decodeRaw_toNat_ein (w : EinWord) : decodeRaw .ein w.toNat = .ok (decode (.ein w)) := by
  simp [decodeRaw, rawBeat_toNat_ein]

theorem decodeRaw_toNat_din (w : DinWord) : decodeRaw .din w.toNat = .ok (decode (.din w)) := by
  simp [decodeRaw, rawBeat_toNat_din]

/-! ## The end bit under its mask -/

theorem and_einEndMask (w : EinWord) : w &&& 0x100#9 = if einEnd w then 0x100#9 else 0x000#9 :=
  BitVec.and_twoPow w 8

theorem and_dinEndMask (w : DinWord) : w &&& 0x10000#17 = if dinEnd w then 0x10000#17 else 0x00000#17 :=
  BitVec.and_twoPow w 16

/-! ## The event of an EIN beat -/

theorem decodeEin_of_end {w : EinWord} (h : einEnd w = true) : decodeEin w = .encEnd := by
  simp [decodeEin, h]

theorem decodeEin_of_byte {w : EinWord} (h : einEnd w = false) : decodeEin w = .encByte (einData w) := by
  simp [decodeEin, h]

/-! ## Beats without an end marker -/

/-- A word whose top bit is 0 is its other bits, widened. -/
theorem setWidth_extractLsb'_of_top_false {n : Nat} (w : BitVec (n + 1)) (h : w.getLsbD n = false) :
    (w.extractLsb' 0 n).setWidth (n + 1) = w := by
  have hw := BitVec.setWidth_setWidth_succ_eq_setWidth_setWidth_of_getLsbD_false h
  rw [← BitVec.setWidth_eq_extractLsb' (Nat.le_succ n), ← hw, BitVec.setWidth_eq, BitVec.setWidth_eq]

theorem einByte_einData {w : EinWord} (h : einEnd w = false) : einByte (einData w) = w :=
  setWidth_extractLsb'_of_top_false w h

/-- The two fields side by side are bits 15..0 of the beat (30_encoding.md R83). -/
theorem dinRun_dinValue_dinLength {w : DinWord} (h : dinEnd w = false) : dinRun (dinValue w) (dinLength w) = w := by
  have hfields : dinValue w ++ dinLength w = w.extractLsb' 0 16 :=
    BitVec.extractLsb'_append_extractLsb'_eq_extractLsb' rfl
  rw [dinRun, hfields]
  exact setWidth_extractLsb'_of_top_false w h

theorem encode_decodeEin_of_byte {w : EinWord} (h : einEnd w = false) : encode (decodeEin w) = .ein w := by
  rw [decodeEin_of_byte h, encode, einByte_einData h]

theorem encode_decodeDin_of_run {w : DinWord} (h : dinEnd w = false) : encode (decodeDin w) = .din w := by
  rw [decodeDin_of_run h, encode, dinRun_dinValue_dinLength h]

/-- Settles O3: a number below the bound is a word's number; the mask clauses give the end bit, and that bit alone
says which of the two events of its format a beat is. -/
theorem everyBeatIsLegal : Obligations.EveryBeatIsLegal := by
  refine ⟨fun w hw => ⟨_, decodeRaw_toNat_ein (BitVec.ofNatLT w hw)⟩,
    fun w hw => ⟨_, decodeRaw_toNat_din (BitVec.ofNatLT w hw)⟩,
    fun w h => ?_, fun w h => ?_, fun w h => ?_, fun w h => ?_⟩
  · have he : einEnd w = true := by simpa [and_einEndMask] using h
    exact decodeEin_of_end he
  · have he : einEnd w = false := by simpa [and_einEndMask] using h
    exact ⟨decodeEin_of_byte he, encode_decodeEin_of_byte he⟩
  · have he : dinEnd w = true := by simpa [and_dinEndMask] using h
    exact decodeDin_of_end he
  · have he : dinEnd w = false := by simpa [and_dinEndMask] using h
    exact ⟨decodeDin_of_run he, encode_decodeDin_of_run he⟩

end Sys2Proof.Machine
end

section
/-! PROOF. The encoder's events, case by case (40_encoder.md R111 to R117): the next state of each case, and from
these the dispatch of `ENC.BYTE` (R110) and of `ENC.END` (R115). -/

namespace Sys2Proof.Machine

/-! ## Accepting an event -/

/-- An event accepted without a record takes its beat and sets the strobes, and ENC_OUT is as before. -/
theorem encAccept_none (st : Option EncStatus) (s : State) :
    encAccept none st s = { s with enc := { s.enc with input := s.enc.input.tail, status := st } } :=
  state_ext _ _ rfl (by simp) rfl rfl rfl

/-- The gated record as a list, told by when the gate is open (40_encoder.md R120). -/
theorem flushRecord_toList_of_open (c : Bool) (cur n : Byte) :
    (flushRecord c cur n).toList = if n ≠ 0#8 ∨ c = true then [{ value := cur, length := n }] else [] := by
  rw [flushRecord, apply_ite Option.toList]
  simp [emitOk]

/-! ## The cases of `ENC.BYTE` -/

/-- Settles O5: in IDLE the event is case FIRST, which pushes no record. -/
theorem encByteFirstStartsRun : Obligations.EncByteFirstStartsRun := by
  intro b s hp
  have he : execEncByte b s = .next (encByteFirst b s) := by simpa [hp] using execEncByte_cases b s
  rw [exec, he, encByteFirst, encAccept_none]
  rfl

/-- Settles O6: up to 253 the increment is `Continue` and does not wrap. -/
theorem encByteMatchCounts : Obligations.EncByteMatchCounts := by
  intro b s hp hb hn
  refine ⟨toNat_succ_of_le _ hn, ?_⟩
  have he : execEncByte b s = .next (encByteMatch (s.enc.cnt + 1#8) s) := by
    simp [execEncByte, hp, hb, inc_of_le _ hn]
  rw [exec, he, encByteMatch, encAccept_none]
  rfl

/-- Settles O7: at 254 the increment is `Overflow`, and its record goes through no gate. -/
theorem encByteOverflowFlushes255 : Obligations.EncByteOverflowFlushes255 := by
  intro b s hp hb hn
  have he : execEncByte b s = .next (encByteOverflow s) := by simpa [hp, hb, hn] using execEncByte_cases b s
  rw [exec, he]
  rfl

/-- Settles O8: a differing byte never reaches the counter's increment, so every count is treated alike. -/
theorem encByteMismatchFlushesAndRestarts : Obligations.EncByteMismatchFlushesAndRestarts := by
  intro b s hp hb
  have he : execEncByte b s = .next (encByteMismatch b s) := by simpa [hp, hb] using execEncByte_cases b s
  rw [exec, he, ← flushRecord_toList_of_open]
  exact congrArg _ (state_ext _ _ rfl (by simp [encByteMismatch, hp]) rfl rfl rfl)

/-! ## The cases of `ENC.END` -/

/-- Settles O11: the meaning in RUN, with the gated record written out. -/
theorem encEndFlushesLastRun : Obligations.EncEndFlushesLastRun := by
  intro s hp
  have he : execEncEnd s = .next (encEndFlush s) := by simpa [hp] using execEncEnd_cases s
  rw [exec, he, ← flushRecord_toList_of_open]
  rfl

/-- Settles O12: the error is an accepted event without a record that sets the flag (60_exceptions.md R195). -/
theorem encEndOnIdleRaisesEmptyInput : Obligations.EncEndOnIdleRaisesEmptyInput := by
  intro s hp
  have he : execEncEnd s = .next (raiseEmptyInput s) := by simpa [hp] using execEncEnd_cases s
  rw [exec, he, raiseEmptyInput, encAccept_none]
  rfl

/-! ## The dispatch -/

/-- Settles O9: the phase, the run detector and the count pick one of the four cases above. -/
theorem encByteDispatch : Obligations.EncByteDispatch := by
  refine ⟨fun w hw => decodeEin_of_byte hw, fun b s hr => ?_⟩
  cases hp : s.enc.ph with
  | idle => exact ⟨_, encByteFirstStartsRun b s hp, by simp⟩
  | run =>
    by_cases hb : b = s.enc.cur
    · rcases le_253_or_eq s.enc.cnt (hr hp) with hn | hn
      · obtain ⟨hsucc, he⟩ := encByteMatchCounts b s hp hb hn
        have hne : s.enc.cnt ≠ 254#8 := fun h => by simp [h] at hn
        exact ⟨_, he, by simp [hp, hb, hne, hsucc]⟩
      · exact ⟨_, encByteOverflowFlushes255 b s hp hb hn, by simp [hp, hb, hn]⟩
    · refine ⟨_, encByteMismatchFlushesAndRestarts b s hp hb, ?_⟩
      rw [← flushRecord_toList_of_open, ← flushRecord_toList]
      simp [hp, hb]

/-- Settles O13: the phase picks one of the two cases above. -/
theorem encEndDispatch : Obligations.EncEndDispatch := by
  refine ⟨fun w hw => decodeEin_of_end hw, fun s => ?_⟩
  cases hp : s.enc.ph with
  | idle => exact ⟨_, encEndOnIdleRaisesEmptyInput s hp, by simp [hp, encDone, encErrEmpty]⟩
  | run =>
    refine ⟨_, encEndFlushesLastRun s hp, ?_⟩
    rw [← flushRecord_toList_of_open, ← flushRecord_toList]
    simp [encDone, encErrEmpty]

end Sys2Proof.Machine
end

section
/-! PROOF. The refinement of `enc_step` by the registers (40_encoder.md R121), one case of the events at a time. -/

namespace Sys2Proof.Machine

/-- Settles O17: each case's next state, read through the registers' abstract state, is what `enc_step` gives there. -/
theorem encoderRefinesEncStep : Obligations.EncoderRefinesEncStep := by
  intro e s a ha
  cases hp : s.enc.ph with
  | idle =>
    obtain rfl := eq_idle_of_encAbs ha hp
    cases e with
    | byte b => exact ⟨_, encByteFirstStartsRun b s hp, encAbs_of_run rfl rfl rfl, by simp [encStep]⟩
    | finish => exact ⟨_, encEndOnIdleRaisesEmptyInput s hp, encAbs_of_idle _ hp, by simp [encStep]⟩
  | run =>
    obtain ⟨hlt, rfl⟩ := eq_run_of_encAbs ha hp
    cases e with
    | byte b =>
      by_cases hb : b = s.enc.cur
      · subst hb
        rcases le_253_or_eq s.enc.cnt (by omega) with hn | hn
        · obtain ⟨-, he⟩ := encByteMatchCounts _ s hp rfl hn
          rw [encStep_match _ _ _ hlt hn]
          exact ⟨_, he, encAbs_of_run hp rfl rfl, by simp⟩
        · rw [encStep_overflow _ _ _ hlt (by simp [hn])]
          exact ⟨_, encByteOverflowFlushes255 _ s hp rfl hn, encAbs_of_run hp rfl rfl, by simp [overflowRecord]⟩
      · rw [encStep_mismatch _ _ _ hlt hb, flushRecord_toList_of_open]
        exact ⟨_, encByteMismatchFlushesAndRestarts b s hp hb, encAbs_of_run hp rfl rfl, by simp⟩
    | finish =>
      rw [encStep_flush, flushRecord_toList_of_open]
      exact ⟨_, encEndFlushesLastRun s hp, encAbs_of_idle _ rfl, by simp⟩

end Sys2Proof.Machine
end

section
/-! PROOF. The decoder (41_decoder.md): its events and its micro-step, and from these the refinement of `dec_accept`
and `dec_emit` (R143). What the decoder has emitted and still owes never changes without reset, so the output of any
run is the beginning of what the input events stand for. -/

namespace Sys2Proof.Machine

/-! ## The events -/

/-- Settles O19: bit 16 is the end bit, and `REM` says which of the two cases of the event applies. -/
theorem decRunLoadsOrWaits : Obligations.DecRunLoadsOrWaits := by
  refine ⟨fun w hw => decodeDin_of_run hw, fun v l s hr => ?_, fun v l s hr => ?_⟩
  · have he : execDecRun v l s = .next (decLoad v l (decAccept false s)) := by simpa [hr] using execDecRun_cases v l s
    exact he
  · have he : execDecRun v l s = .next (decWait s) := by simpa [hr] using execDecRun_cases v l s
    exact he

/-- Settles O20: as for `DEC.RUN`, with nothing to load. -/
theorem decEndStrobesOrWaits : Obligations.DecEndStrobesOrWaits := by
  refine ⟨fun w hw => decodeDin_of_end hw, fun s hr => ?_, fun s hr => ?_⟩
  · have he : execDecEnd s = .next (decAccept true s) := by simpa [hr] using execDecEnd_cases s
    exact he
  · have he : execDecEnd s = .next (decWait s) := by simpa [hr] using execDecEnd_cases s
    exact he

/-- A decoder event goes on from every state and leaves the encoder unit alone: it is the event of its own beat. -/
theorem exec_decEvent_next (e : DecEvent) (s : State) : ∃ t, exec e.instr s = .next t ∧ t.enc = s.enc := by
  obtain ⟨t, h⟩ := exec_next e.instr s
  refine ⟨t, h, ?_⟩
  rw [← dinEvent_beat e, dinEvent_instr] at h
  exact (exec_din_rest e.beat s t h).1

/-! ## The micro-step -/

/-- The one move of the decoder that pushes a byte is `DEC.EMIT`, and the byte is `VAL`. -/
theorem DecMove.output_eq {s : State} {d : Decoder} (m : DecMove s d) :
    d.output = if decEmits s then s.dec.output ++ [s.dec.val] else s.dec.output := by
  cases m with
  | stay _ h => simp [h]
  | emit h _ => simp [h]
  | load _ ht | finish _ ht =>
    have he : decEmits s = false := by simpa [ht] using not_decTransfer_and_decEmits s
    simp [he]

theorem decEmits_of_reset (s : State) (h : s.pins.rst = true) : decEmits s = false := by
  simp [decEmits, h]

/-- DEC_OUT after any step, reset included. -/
theorem step_decOutput {s t : State} (h : step s = .next t) :
    t.dec.output = if decEmits s then s.dec.output ++ [s.dec.val] else s.dec.output := by
  cases hr : s.pins.rst with
  | true => simp [step_next_reset s t h hr, decEmits_of_reset s hr]
  | false => exact (step_next_move s t h hr).2.1.output_eq

/-- A cycle in which `DEC.EMIT` is enabled. -/
theorem step_of_decEmits (s : State) (he : decEmits s = true) :
    ∃ t, step s = .next t ∧ t.plan = s.plan.tail ∧
      t.dec = { s.dec with rem := countDown s.dec.rem, output := s.dec.output ++ [s.dec.val], done := false } := by
  have hr : s.pins.rst = false := by simp_all [decEmits]
  obtain ⟨t, h, -, m, -, hp⟩ := step_move s hr
  exact ⟨t, h, hp, (m.eq_of_emits he).2⟩

/-- Settles O21: with the three conditions the decoder's move is `DEC.EMIT`; without them no move pushes a byte. -/
theorem decEmitPushesAndCountsDown : Obligations.DecEmitPushesAndCountsDown := by
  refine ⟨fun s hr hn hy => ?_, fun s t hno h => ?_⟩
  · obtain ⟨t, h, -, hd⟩ := step_of_decEmits s (by simp [decEmits, hr, hn, hy])
    exact ⟨t, h, by rw [hd]; exact countDown_toNat _ hn, by rw [hd]⟩
  · have he : decEmits s = false := by rcases hno with hno | hno <;> simp [decEmits, hno]
    simp [step_decOutput h, he]

/-- By induction on the copies still to emit, while the host takes a byte in every cycle. -/
theorem runFor_emits (n : Nat) (s : State) (hn : n = s.dec.rem.toNat)
    (hy : ∀ k < n, (s.plan.pinsAt k).rst = false ∧ (s.plan.pinsAt k).decOutReady = true) :
    ∃ t, runFor n s = .next t ∧ t.dec.rem = 0#8 ∧ t.dec.val = s.dec.val ∧ t.dec.input = s.dec.input ∧
      t.dec.output = s.dec.output ++ List.replicate n s.dec.val := by
  induction n generalizing s with
  | zero => exact ⟨s, rfl, BitVec.eq_of_toNat_eq hn.symm, rfl, rfl, by simp⟩
  | succ n ih =>
    have hne : s.dec.rem ≠ 0#8 := fun h => by simp [h] at hn
    obtain ⟨hr, hready⟩ := plan_head_of_lt (fun p => p.rst = false ∧ p.decOutReady = true) s n hy
    obtain ⟨u, hu, hp, hd⟩ := step_of_decEmits s (by simp [decEmits, hr, hne, hready])
    have hcount : u.dec.rem.toNat + 1 = s.dec.rem.toNat := by
      rw [hd]
      exact countDown_toNat_succ _ hne
    have hrem : n = u.dec.rem.toNat := by omega
    obtain ⟨t, ht, hidle, hval, hin, hout⟩ := ih u hrem
      (plan_tail_of_lt (fun p => p.rst = false ∧ p.decOutReady = true) s u n hy hp)
    refine ⟨t, by rw [runFor_succ, hu, andThen_next, ht], hidle, ?_⟩
    simp [hval, hin, hout, hd, List.replicate_succ]

/-- Settles O25: events go on from every state, and `REM` counts the emit steps left. -/
theorem decoderNeverFails : Obligations.DecoderNeverFails :=
  ⟨exec_decEvent_next, runFor_emits⟩

/-! ## The bytes emitted and still owed -/

theorem beatRuns_cons_of_end {w : DinWord} (h : dinEnd w = true) (ws : List DinWord) :
    beatRuns (w :: ws) = beatRuns ws := by
  simp [beatRuns, h]

theorem beatRuns_cons_of_run {w : DinWord} (h : dinEnd w = false) (ws : List DinWord) :
    beatRuns (w :: ws) = { value := dinValue w, length := dinLength w } :: beatRuns ws := by
  simp [beatRuns, h]

/-- `DEC.EMIT` turns an owed byte into an emitted one, `DEC.RUN` a waiting run into owed bytes; nothing else counts. -/
theorem DecMove.decAccount_eq {s : State} {d : Decoder} (m : DecMove s d) :
    decAccount { s with dec := d } = decAccount s := by
  cases m with
  | stay => rfl
  | emit _ hr => simp [decAccount, ← countDown_toNat_succ _ hr, List.replicate_succ]
  | load w _ hw he hr =>
    simp only [decAccount, hr]
    rw [decInBeat_head s w hw, beatRuns_cons_of_run he]
    simp [decodeSeq]
  | finish w _ hw he _ =>
    simp only [decAccount]
    rw [decInBeat_head s w hw, beatRuns_cons_of_end he]
    rfl

theorem step_decAccount {s t : State} (hr : s.pins.rst = false) (h : step s = .next t) :
    decAccount t = decAccount s :=
  (step_next_move s t h hr).2.1.decAccount_eq

theorem runFor_decAccount (n : Nat) (s t : State) (hr : NoResetFor n s) (h : runFor n s = .next t) :
    decAccount t = decAccount s := by
  induction n generalizing s with
  | zero =>
    obtain rfl : s = t := by simpa using h
    rfl
  | succ n ih =>
    have hr0 : s.pins.rst = false := plan_head_of_lt (·.rst = false) s n hr
    obtain ⟨u, hu, -, -, -, hp⟩ := step_move s hr0
    rw [runFor_succ, hu, andThen_next] at h
    calc decAccount t = decAccount u := ih u (plan_tail_of_lt (·.rst = false) s u n hr hp) h
      _ = decAccount s := step_decAccount hr0 hu

/-- An idle decoder owes only what waits on DEC_IN. -/
theorem decAccount_of_idle (s : State) (h : s.dec.rem = 0#8) :
    decAccount s = s.dec.output ++ decodeSeq (beatRuns s.dec.input) := by
  simp [decAccount, h]

theorem output_prefix_decAccount (s : State) : s.dec.output <+: decAccount s := by
  rw [decAccount, List.append_assoc]
  exact List.prefix_append _ _

/-! ## The refinement -/

theorem decAcceptStep_run_eq_some {d : DecState} {r : Run} {o : DecOut} :
    decAcceptStep d (.run r) = some o ↔
      d.rem = 0#8 ∧ o = { next := { val := r.value, rem := r.length }, byte := none, done := false } := by
  simp [decAcceptStep, eq_comm (a := o)]

theorem decAcceptStep_finish_eq_some {d : DecState} {o : DecOut} :
    decAcceptStep d .finish = some o ↔ d.rem = 0#8 ∧ o = { next := d, byte := none, done := true } := by
  simp [decAcceptStep, eq_comm (a := o)]

/-- The abstract down-counter, on integers, is the register's (41_decoder.md R144). -/
theorem ofNat_pred_eq_countDown (r : Byte) (h : r ≠ 0#8) : BitVec.ofNat 8 (r.toNat - 1) = countDown r := by
  rw [← countDown_toNat r h, BitVec.ofNat_toNat, BitVec.setWidth_eq]

theorem decEmitStep_eq_some {d : DecState} {o : DecOut} :
    decEmitStep d = some o ↔
      d.rem ≠ 0#8 ∧ o = { next := { val := d.val, rem := countDown d.rem }, byte := some d.val, done := false } := by
  by_cases h : d.rem = 0#8
  · simp [decEmitStep, h]
  · simp [decEmitStep, h, ofNat_pred_eq_countDown, eq_comm (a := o)]

theorem decAcceptStep_isSome (d : DecState) (e : DecEvent) : (decAcceptStep d e).isSome = (d.rem == 0#8) := by
  cases e <;> by_cases h : d.rem = 0#8 <;> simp [decAcceptStep, h]

theorem decEmitStep_isSome (d : DecState) : (decEmitStep d).isSome = (d.rem != 0#8) := by
  by_cases h : d.rem = 0#8 <;> simp [decEmitStep, h]

/-- Where `dec_accept` is enabled, the event does what it says. -/
theorem exec_refines_decAcceptStep (e : DecEvent) (s : State) (o : DecOut)
    (h : decAcceptStep (decAbs s.dec) e = some o) :
    ∃ t, exec e.instr s = .next t ∧ decAbs t.dec = o.next ∧
      t.dec.output = s.dec.output ++ o.byte.toList ∧ t.dec.done = o.done := by
  cases e with
  | run r =>
    obtain ⟨hr, rfl⟩ := decAcceptStep_run_eq_some.1 h
    obtain ⟨-, hload, -⟩ := decRunLoadsOrWaits
    exact ⟨_, hload r.value r.length s hr, rfl, by simp, rfl⟩
  | finish =>
    obtain ⟨hr, rfl⟩ := decAcceptStep_finish_eq_some.1 h
    obtain ⟨-, hstrobe, -⟩ := decEndStrobesOrWaits
    exact ⟨_, hstrobe s hr, rfl, by simp, rfl⟩

/-- Where `dec_emit` is enabled, `DEC.EMIT` does what it says. -/
theorem decEmit_refines_decEmitStep (s : State) (o : DecOut) (h : decEmitStep (decAbs s.dec) = some o) :
    decAbs (decEmit s).dec = o.next ∧ (decEmit s).dec.output = s.dec.output ++ o.byte.toList ∧
      (decEmit s).dec.done = o.done := by
  obtain ⟨hr, rfl⟩ := decEmitStep_eq_some.1 h
  rw [decEmit_of_ne s hr]
  exact ⟨rfl, rfl, rfl⟩

/-- Settles O23: the two step functions case by case; and two runs from idle decoders with the same DEC_IN and DEC_OUT
have the same account of bytes, and both outputs are beginnings of it. -/
theorem decoderRefinesDecStep : Obligations.DecoderRefinesDecStep := by
  refine ⟨exec_refines_decAcceptStep, decEmit_refines_decEmitStep, fun d e => ?_, ?_⟩
  · rw [decAcceptStep_isSome, decEmitStep_isSome, bne, Bool.not_not]
  · intro n m s u t v hs hu hsIdle huIdle hin hout ht hv
    have hacc : decAccount t = decAccount v := by
      rw [runFor_decAccount n s t hs ht, runFor_decAccount m u v hu hv, decAccount_of_idle s hsIdle,
        decAccount_of_idle u huIdle, hin, hout]
    exact List.prefix_or_prefix_of_prefix (output_prefix_decAccount t) (hacc ▸ output_prefix_decAccount v)

end Sys2Proof.Machine
end

section
/-! PROOF. The whole-sequence functions (42_sequence_functions.md): the bytes that the records of `enc_step` stand for
(40_encoder.md R124), folded over a call, and from these the laws of `encode` and `decode`. -/

namespace Sys2Proof.Machine

/-! ## `enc_step` in RUN, a case each (40_encoder.md R121) -/

section
variable (c : Bool) (cur : Byte) (k : Fin 255)

theorem encStep_run_match (h : k.val + 1 < 255) :
    encStep c (.run cur k) (.byte cur) = { next := .run cur ⟨k.val + 1, h⟩, record := none, status := none } := by
  simp [encStep, h]

theorem encStep_run_overflow (h : k.val = 254) :
    encStep c (.run cur k) (.byte cur) =
      { next := .run cur 0, record := some { value := cur, length := 255#8 }, status := none } := by
  simp [encStep, h]

theorem encStep_run_mismatch {b : Byte} (h : b ≠ cur) :
    encStep c (.run cur k) (.byte b) = { next := .run b 1, record := gatedRecord c cur k, status := none } := by
  simp [encStep, h]

/-- Everything a byte can do in RUN. -/
theorem encStep_run_byte_cases (b : Byte) :
    (b = cur ∧ ∃ h : k.val + 1 < 255,
      encStep c (.run cur k) (.byte b) = { next := .run cur ⟨k.val + 1, h⟩, record := none, status := none }) ∨
    (b = cur ∧ k.val = 254 ∧ encStep c (.run cur k) (.byte b) =
      { next := .run cur 0, record := some { value := cur, length := 255#8 }, status := none }) ∨
    (b ≠ cur ∧
      encStep c (.run cur k) (.byte b) = { next := .run b 1, record := gatedRecord c cur k, status := none }) := by
  by_cases hb : b = cur
  · subst hb
    by_cases h : k.val + 1 < 255
    · exact .inl ⟨rfl, h, encStep_run_match c b k h⟩
    · have h254 : k.val = 254 := by omega
      exact .inr (.inl ⟨rfl, h254, encStep_run_overflow c b k h254⟩)
  · exact .inr (.inr ⟨hb, encStep_run_mismatch c cur k hb⟩)

end

/-- A byte never ends a call: the encoder is in RUN after it, and no strobe is asserted. -/
theorem encStep_byte_next_status (c : Bool) (a : EncState) (b : Byte) :
    (encStep c a (.byte b)).next ≠ .idle ∧ (encStep c a (.byte b)).status = none := by
  cases a with
  | idle => simp [encStep]
  | run cur k =>
    rcases encStep_run_byte_cases c cur k b with ⟨_, _, e⟩ | ⟨_, _, e⟩ | ⟨_, e⟩ <;> simp [e]

/-- An end marker always leaves the encoder in IDLE. -/
theorem encStep_finish_next (c : Bool) (a : EncState) : (encStep c a .finish).next = .idle := by
  cases a <;> rfl

/-! ## What a step conserves (40_encoder.md R124) -/

@[simp] theorem decodeSeq_append (rs qs : List Run) : decodeSeq (rs ++ qs) = decodeSeq rs ++ decodeSeq qs := by
  induction rs with
  | nil => rfl
  | cons r rs ih => simp [decodeSeq, ih]

@[simp] theorem decodeSeq_singleton (r : Run) : decodeSeq [r] = List.replicate r.length.toNat r.value :=
  List.append_nil _

/-- The gate drops no byte: the record it holds back stands for none. -/
theorem decodeSeq_gatedRecord (c : Bool) (cur : Byte) (k : Fin 255) :
    decodeSeq (gatedRecord c cur k).toList = List.replicate k.val cur := by
  have hk : (BitVec.ofNat 8 k.val).toNat = k.val := by
    rw [BitVec.toNat_ofNat]
    omega
  by_cases hopen : k.val ≠ 0 ∨ c = true
  · rw [gatedRecord, if_pos hopen]
    simp [hk]
  · have hzero : k.val = 0 := by_contra fun h => hopen (.inl h)
    rw [gatedRecord, if_neg hopen, hzero]
    rfl

/-- The bytes accepted and not yet emitted, of an abstract state. -/
@[simp] def EncState.pending : EncState → List Byte
  | .idle => []
  | .run cur k => List.replicate k.val cur

/-- They are those of the registers. -/
theorem encPending_of_encAbs {e : Encoder} {a : EncState} (h : encAbs e = some a) : encPending e = a.pending := by
  cases hp : e.ph with
  | idle => simp [encPending, hp, eq_idle_of_encAbs h hp]
  | run =>
    obtain ⟨_, rfl⟩ := eq_run_of_encAbs h hp
    simp [encPending, hp]

/-- The byte an event brings. -/
@[simp] def EncEvent.bytes : EncEvent → List Byte
  | .byte b => [b]
  | .finish => []

/-- What a step emits and keeps pending is what was pending and what the event brings. -/
theorem encStep_conserves (c : Bool) (a : EncState) (e : EncEvent) :
    decodeSeq (encStep c a e).record.toList ++ (encStep c a e).next.pending = a.pending ++ e.bytes := by
  cases a with
  | idle => cases e <;> rfl
  | run cur k =>
    cases e with
    | finish => simp [encStep, decodeSeq_gatedRecord]
    | byte b =>
      rcases encStep_run_byte_cases c cur k b with ⟨rfl, h, e⟩ | ⟨rfl, h254, e⟩ | ⟨-, e⟩ <;> rw [e]
      · simp [decodeSeq, List.replicate_succ']
      · have hfull : decodeSeq [{ value := b, length := 255#8 }] = List.replicate (k.val + 1) b := by
          rw [decodeSeq_singleton, h254]
          rfl
        simp [hfull, List.replicate_succ']
      · simp [decodeSeq_gatedRecord]

/-! ## A call of `encode` -/

/-- The fold invariant, over any events. -/
theorem encTrace_conserves (c : Bool) (a : EncState) (es : List EncEvent) :
    decodeSeq (encTrace c a es).records ++ (encTrace c a es).final.pending =
      a.pending ++ es.flatMap EncEvent.bytes := by
  induction es generalizing a with
  | nil => simp [encTrace, decodeSeq]
  | cons e es ih =>
    simp only [encTrace, decodeSeq_append, List.append_assoc, ih, List.flatMap_cons]
    rw [← List.append_assoc, encStep_conserves, List.append_assoc]

theorem seqEvents_nil : seqEvents [] = [.finish] := rfl

theorem seqEvents_cons (b : Byte) (d : List Byte) : seqEvents (b :: d) = .byte b :: seqEvents d := rfl

@[simp] theorem flatMap_bytes_seqEvents (d : List Byte) : (seqEvents d).flatMap EncEvent.bytes = d := by
  induction d with
  | nil => rfl
  | cons b d ih => rw [seqEvents_cons, List.flatMap_cons, ih]; rfl

/-- A call ends in IDLE. -/
@[simp] theorem encTrace_seqEvents_final (c : Bool) (a : EncState) (d : List Byte) :
    (encTrace c a (seqEvents d)).final = .idle := by
  induction d generalizing a with
  | nil => exact encStep_finish_next c a
  | cons b d ih => exact ih _

/-- A call asserts one strobe, at its end; it is the error only if no byte came (60_exceptions.md R190). -/
theorem encTrace_seqEvents_statuses (c : Bool) (a : EncState) (d : List Byte) :
    (encTrace c a (seqEvents d)).statuses = [if a = .idle ∧ d = [] then .errEmpty else .done] := by
  induction d generalizing a with
  | nil => cases a <;> simp [seqEvents_nil, encTrace, encStep]
  | cons b d ih =>
    obtain ⟨hrun, hstatus⟩ := encStep_byte_next_status c a b
    simp [seqEvents_cons, encTrace, hstatus, ih, hrun]

@[simp] theorem encodeSeq_nil (c : Bool) : encodeSeq c [] = .error .emptyInputError := by
  simp [encodeSeq, encTrace_seqEvents_statuses]

theorem encodeSeq_of_ne_nil (c : Bool) {d : List Byte} (hd : d ≠ []) :
    encodeSeq c d = .ok (encTrace c .idle (seqEvents d)).records := by
  simp [encodeSeq, encTrace_seqEvents_statuses, hd]

/-- The records of a call stand for its bytes: nothing is pending before it or after it. -/
theorem decodeSeq_encTrace_seqEvents (c : Bool) (d : List Byte) :
    decodeSeq (encTrace c .idle (seqEvents d)).records = d := by
  simpa using encTrace_conserves c .idle (seqEvents d)

/-- Whatever `encode` answers decodes to its input. -/
theorem decodeSeq_of_encodeSeq {c : Bool} {d : List Byte} {rs : List Run} (h : encodeSeq c d = .ok rs) :
    decodeSeq rs = d := by
  have hd : d ≠ [] := by
    rintro rfl
    simp at h
  rw [encodeSeq_of_ne_nil c hd, Except.ok.injEq] at h
  rw [← h, decodeSeq_encTrace_seqEvents]

/-- Settles O49: a non-empty call ends with `DONE`, and its records stand for its bytes. -/
theorem decodeOfEncodeSeq : Obligations.DecodeOfEncodeSeq :=
  fun c d hd => ⟨_, encodeSeq_of_ne_nil c hd, decodeSeq_encTrace_seqEvents c d⟩

/-- Settles O48: the empty call as a function, and a lone end marker to each idle unit. -/
theorem emptyCalls : Obligations.EmptyCalls := by
  refine ⟨encodeSeq_nil, rfl, fun s hp => ?_, fun s hr => ?_⟩
  · exact ⟨_, encEndOnIdleRaisesEmptyInput s hp, rfl, rfl, rfl⟩
  · obtain ⟨-, hstrobe, -⟩ := decEndStrobesOrWaits
    exact ⟨_, hstrobe s hr, rfl, rfl⟩

/-! ## Equal bytes -/

/-- The first byte of a call starts its run. -/
theorem encTrace_idle_byte (c : Bool) (b : Byte) (es : List EncEvent) :
    encTrace c .idle (.byte b :: es) = encTrace c (.run b 1) es := rfl

/-- Matching bytes short of the overflow only count. -/
theorem encTrace_run_repEvents (c : Bool) (v : Byte) (n : Nat) (k : Fin 255) (h : k.val + n < 255)
    (es : List EncEvent) :
    encTrace c (.run v k) (repEvents n v ++ es) = encTrace c (.run v ⟨k.val + n, h⟩) es := by
  induction n generalizing k with
  | zero => rfl
  | succ n ih =>
    have hk : k.val + 1 < 255 := by omega
    have hn : k.val + 1 + n < 255 := by omega
    have hcount : (⟨k.val + 1 + n, hn⟩ : Fin 255) = ⟨k.val + (n + 1), h⟩ := Fin.ext (by simp; omega)
    calc encTrace c (.run v k) (repEvents (n + 1) v ++ es)
        = encTrace c (.run v ⟨k.val + 1, hk⟩) (repEvents n v ++ es) := by
          simp [repEvents, List.replicate_succ, encTrace, encStep_run_match c v k hk]
      _ = encTrace c (.run v ⟨k.val + (n + 1), h⟩) es := by rw [ih _ hn, hcount]

/-- The bytes that fill a run up to 255 emit its one record, and the count starts again at 0. -/
theorem encTrace_run_fills (c : Bool) (v : Byte) (n : Nat) (k : Fin 255) (h : k.val + n = 254)
    (es : List EncEvent) :
    (encTrace c (.run v k) (repEvents (n + 1) v ++ es)).records =
      { value := v, length := 255#8 } :: (encTrace c (.run v 0) es).records := by
  have hsplit : repEvents (n + 1) v ++ es = repEvents n v ++ .byte v :: es := by
    simp [repEvents, List.replicate_succ']
  rw [hsplit, encTrace_run_repEvents c v n k (by omega)]
  simp [encTrace, encStep_run_overflow c v ⟨k.val + n, _⟩ h]

/-- 255 equal bytes: the full record, and behind it the gated record of the count 0. -/
theorem encodeSeq_replicate_255 (c : Bool) (v : Byte) :
    encodeSeq c (List.replicate 255 v) = .ok ({ value := v, length := 255#8 } :: (gatedRecord c v 0).toList) := by
  have hevents : seqEvents (List.replicate 255 v) = .byte v :: (repEvents 254 v ++ [.finish]) := by
    rw [List.replicate_succ, seqEvents_cons, seqEvents, List.map_replicate, repEvents]
  have hne : List.replicate 255 v ≠ [] := List.cons_ne_nil v _
  rw [encodeSeq_of_ne_nil c hne, hevents, encTrace_idle_byte, encTrace_run_fills c v 253 1 rfl]
  simp [encTrace, encStep]

/-- Settles O54: the gate decides on the record of length 0, and what `encode` answers decodes to its input. -/
theorem uniform255 : Obligations.Uniform255 := by
  intro v
  have hcompat : encodeSeq true (List.replicate 255 v) =
      .ok [{ value := v, length := 255#8 }, { value := v, length := 0#8 }] := encodeSeq_replicate_255 true v
  have hsuppress : encodeSeq false (List.replicate 255 v) = .ok [{ value := v, length := 255#8 }] :=
    encodeSeq_replicate_255 false v
  exact ⟨hcompat, hsuppress, decodeSeq_of_encodeSeq hcompat, decodeSeq_of_encodeSeq hsuppress⟩

end Sys2Proof.Machine
end

section
/-! PROOF. A reset cycle (70_reset_and_hazards.md R220): what it leaves of both units, and that no move of the encoder
without reset lowers `ENC.ERR`. -/

namespace Sys2Proof.Machine

/-- Without reset `ENC.ERR` is sticky (10_state.md R25): one move raises it, the others keep it. -/
theorem EncMove.err_of_err {s : State} {e : Encoder} {n : Nat} (m : EncMove s e n) (h : s.enc.err = true) :
    e.err = true := by
  cases m with
  | empty => rfl
  | stay | first | more | overflow | unstated | mismatch | flush => exact h

/-- Settles O34: a reset cycle leaves `resetUnits`, no end marker is accepted in it, and its output pins are those
under reset; without reset the encoder's move keeps a raised `ENC.ERR`. -/
theorem resetCycleIdlesBothUnits : Obligations.ResetCycleIdlesBothUnits := by
  refine ⟨fun s hr => ?_, fun s t h hs ht => ?_⟩
  · have hstep := step_of_reset s hr
    have hends : encTakesEnd s = false ∧ decTakesEnd s = false :=
      ⟨encTakesEnd_of_reset s hr, decTakesEnd_of_reset s hr⟩
    refine ⟨_, hstep, ?_⟩
    simp [step_encDone hstep, step_encErrEmpty hstep, step_decDone hstep, hends, ports_of_reset s hr]
  · by_contra hr
    obtain ⟨m, -, -, -⟩ := step_next_move s t h (Bool.eq_false_of_not_eq_true hr)
    simp [m.err_of_err hs] at ht

end Sys2Proof.Machine
end

section
/-! PROOF. Decoding undoes encoding (30_encoding.md R86, R92), for the beats and for their numbers in the opcode table
(log 14). -/

namespace Sys2Proof.Machine

theorem decode_encode (i : Instr) : decode (encode i) = i := by
  cases i with
  | encByte b => simp [encode, decode, decodeEin_of_byte]
  | encEnd => exact decodeEin_of_end einEnd_endBeat
  | decRun v l => simp [encode, decode, decodeDin_of_run]
  | decEnd => exact decodeDin_of_end dinEnd_endBeat

/-- 9 bits take two bytes, so a table word of 16 bits is an EIN beat. -/
theorem tableBeat_toNat_ein (w : EinWord) : tableBeat 16 w.toNat = .ok (.ein w) :=
  rawBeat_toNat_ein w

/-- 17 bits take three bytes, so a table word of 24 bits is a DIN beat. -/
theorem tableBeat_toNat_din (w : DinWord) : tableBeat 24 w.toNat = .ok (.din w) :=
  rawBeat_toNat_din w

theorem decodeTableWord_toNat_ein (w : EinWord) : decodeTableWord 16 w.toNat = some (decode (.ein w)) := by
  simp [decodeTableWord, tableBeat_toNat_ein]

theorem decodeTableWord_toNat_din (w : DinWord) : decodeTableWord 24 w.toNat = some (decode (.din w)) := by
  simp [decodeTableWord, tableBeat_toNat_din]

/-- Settles O2: a table word of the encoding is read as the encoded beat, which decodes to the instruction. -/
theorem decodeOfEncodeIsIdentity : Obligations.DecodeOfEncodeIsIdentity := by
  intro i _
  have h := decode_encode i
  refine ⟨h, ?_⟩
  cases i with
  | encByte b => exact ⟨rfl, (decodeTableWord_toNat_ein _).trans (congrArg some h)⟩
  | encEnd => exact ⟨rfl, (decodeTableWord_toNat_ein _).trans (congrArg some h)⟩
  | decRun v l => exact ⟨rfl, (decodeTableWord_toNat_din _).trans (congrArg some h)⟩
  | decEnd => exact ⟨rfl, (decodeTableWord_toNat_din _).trans (congrArg some h)⟩

/-- Settles O1: the words are literals, so decoding them is computation. -/
theorem sampleBeatsDecode : Obligations.SampleBeatsDecode := by
  unfold Obligations.SampleBeatsDecode
  decide

end Sys2Proof.Machine
end

section
/-! PROOF. What each event leaves unchanged (40_encoder.md sections 2 and 3, 41_decoder.md sections 2 to 4), and the
one error (60_exceptions.md section 1). -/

namespace Sys2Proof.Machine

/-! ## The encoder's events -/

/-- A matching byte at the count no run reaches: `CNT` takes the free value that comes next (log 4). -/
theorem exec_encByte_of_cnt_255 (b : Byte) (s : State) (hp : s.enc.ph = .run) (hb : b = s.enc.cur)
    (hn : s.enc.cnt = 255#8) :
    exec (.encByte b) s = .next { s with
      enc := { s.enc with cnt := Config.freeByte s.freeIdx, input := s.enc.input.tail, status := none }
      freeIdx := s.freeIdx + 1 } := by
  have he : execEncByte b s = .next (encByteUnstated s) := by simpa [hp, hb, hn] using execEncByte_cases b s
  rw [exec, he, encByteUnstated, encAccept_none]
  rfl

/-- Settles O10: the free value and the next index are the two the statement leaves open. -/
theorem encByteAtCount255Runs : Obligations.EncByteAtCount255Runs :=
  fun b s hp hb hn => ⟨_, _, exec_encByte_of_cnt_255 b s hp hb hn⟩

/-- What every case of `ENC.BYTE` has in common. -/
theorem exec_encByte_frame {b : Byte} {s t : State} (h : exec (.encByte b) s = .next t) :
    t.enc.err = s.enc.err ∧ t.enc.status = none ∧ t.enc.input = s.enc.input.tail ∧
      (t.enc.output = s.enc.output ∨ ∃ r, t.enc.output = s.enc.output ++ [r]) ∧
      (s.enc.ph = .run → b = s.enc.cur → t.enc.cur = s.enc.cur) := by
  rcases execEncByte_cases b s with ⟨hp, e⟩ | ⟨hp, hb, -, e⟩ | ⟨hp, hb, -, e⟩ | ⟨hp, hb, -, e⟩ | ⟨hp, hb, e⟩ <;>
    obtain rfl := Host.Outcome.next.inj (e.symm.trans h)
  · simp [encByteFirst, hp]
  · simp [encByteMatch]
  · simp [encByteOverflow]
  · simp [encByteUnstated]
  · cases hf : flushRecord s.cfg.compatZeroRuns s.enc.cur s.enc.cnt <;> simp [encByteMismatch, hb, hf]

/-- What both cases of `ENC.END` have in common, and where they differ. -/
theorem exec_encEnd_frame {s t : State} (h : exec .encEnd s = .next t) :
    t.freeIdx = s.freeIdx ∧ t.enc.input = s.enc.input.tail ∧ t.enc.cur = s.enc.cur ∧ t.enc.cnt = s.enc.cnt ∧
      (t.enc.output = s.enc.output ∨ ∃ r, t.enc.output = s.enc.output ++ [r]) ∧
      t.enc.status = some (if s.enc.ph = .idle then .errEmpty else .done) ∧
      t.enc.err = (s.enc.err || s.enc.ph == .idle) := by
  rcases execEncEnd_cases s with ⟨hp, e⟩ | ⟨hp, e⟩ <;> obtain rfl := Host.Outcome.next.inj (e.symm.trans h)
  · cases hf : flushRecord s.cfg.compatZeroRuns s.enc.cur s.enc.cnt <;> simp [encEndFlush, hf, hp]
  · simp [hp]

/-- Settles O16: an encoder event is the event of its own beat, so it keeps the rest of the machine; the streams and
registers are those of its cases. -/
theorem encoderEventsFrame : Obligations.EncoderEventsFrame := by
  refine ⟨fun b s t h => ?_, fun s t h => ?_⟩
  · obtain ⟨hd, hc, hp⟩ := exec_ein_rest (einByte b) s t (by rwa [← decode_encode (.encByte b)] at h)
    obtain ⟨herr, -, hin, hout, hcur⟩ := exec_encByte_frame h
    exact ⟨hd, hc, hp, herr, hin, hout, hcur⟩
  · obtain ⟨hd, hc, hp⟩ := exec_ein_rest einEndBeat s t (by rwa [← decode_encode .encEnd] at h)
    obtain ⟨hf, hin, hcur, hcnt, hout, -⟩ := exec_encEnd_frame h
    exact ⟨hd, hc, hp, hf, hin, hcur, hcnt, hout⟩

/-! ## The decoder's events -/

/-- Settles O22: `REM` says whether the event is accepted or waits, and the next state of each case is known. -/
theorem decoderEventsFrame : Obligations.DecoderEventsFrame := by
  obtain ⟨-, hload, hloadWaits⟩ := decRunLoadsOrWaits
  obtain ⟨-, hend, hendWaits⟩ := decEndStrobesOrWaits
  refine ⟨fun v l s t h => ?_, fun s t h => ?_, fun s hr => by simp [decEmit_of_ne s hr]⟩
  · by_cases hr : s.dec.rem = 0#8
    · obtain rfl := Host.Outcome.next.inj ((hload v l s hr).symm.trans h)
      simp [hr]
    · obtain rfl := Host.Outcome.next.inj ((hloadWaits v l s hr).symm.trans h)
      simp [hr]
  · by_cases hr : s.dec.rem = 0#8
    · obtain rfl := Host.Outcome.next.inj ((hend s hr).symm.trans h)
      simp [hr]
    · obtain rfl := Host.Outcome.next.inj ((hendWaits s hr).symm.trans h)
      simp [hr]

/-! ## The one error -/

/-- Settles O14: `ENC.BYTE` keeps the flag and clears the strobes, a decoder event leaves the encoder alone, and
`ENC.END` raises the error exactly in IDLE. -/
theorem onlyErrorIsEmptyInput : Obligations.OnlyErrorIsEmptyInput := by
  intro i s
  obtain ⟨t, h⟩ := exec_next i s
  obtain ⟨hrun, hend, -⟩ := decoderEventsFrame
  refine ⟨t, h, ?_⟩
  cases i with
  | encByte b =>
    obtain ⟨herr, hst, -⟩ := exec_encByte_frame h
    simp_all
  | encEnd =>
    obtain ⟨-, -, -, -, -, hst, herr⟩ := exec_encEnd_frame h
    cases hp : s.enc.ph <;> simp_all
  | decRun v l =>
    obtain ⟨henc, -⟩ := hrun v l s t h
    simp_all
  | decEnd =>
    obtain ⟨henc, -⟩ := hend s t h
    simp_all

end Sys2Proof.Machine
end

section
/-! PROOF. The cycle as the accepted events (20_memory.md R55, R56; log 7): which part each unit contributes, told by
the port functions, so that the step is the exec of the beats accepted. -/

namespace Sys2Proof.Machine

section
variable {s : State}

theorem no_reset_of_encTransfer (h : encTransfer s = true) : s.pins.rst = false := by
  simp_all [encTransfer]

theorem no_reset_of_decTransfer (h : decTransfer s = true) : s.pins.rst = false := by
  simp_all [decTransfer]

theorem no_reset_of_decEmits (h : decEmits s = true) : s.pins.rst = false := by
  simp_all [decEmits]

/-- An accepted beat is one on offer. -/
theorem exists_encInBeat_of_transfer (h : encTransfer s = true) : ∃ w, encInBeat s = some w := by
  rw [← Option.isSome_iff_exists]
  simp_all [encTransfer]

/-! ## The encoder's part -/

theorem encCycle_of_transfer {w : EinWord} (ht : encTransfer s = true) (hw : encInBeat s = some w) :
    encCycle s.pins (beginCycle s) = exec (decode (.ein w)) (beginCycle s) := by
  have ho : encOffered s.pins (beginCycle s) = some w := hw
  have hready : s.pins.encOutReady = true := by simp_all [encTransfer]
  simp [encCycle, ho, hready]

theorem encCycle_of_no_transfer (hr : s.pins.rst = false) (ht : encTransfer s = false) :
    encCycle s.pins (beginCycle s) = .next (beginCycle s) := by
  rcases encCycle_cases s.pins (beginCycle s) with ⟨e, -⟩ | ⟨w, ho, hready, -⟩
  · exact e
  · have hw : encInBeat s = some w := ho
    simp [encTransfer, hr, hw, hready] at ht

/-! ## The decoder's part, once the encoder's has left the decoder as it was at the start of the cycle -/

variable {u : State} (hu : u.dec = (beginCycle s).dec)
include hu

theorem decCycle_of_transfer {w : DinWord} (ht : decTransfer s = true) (hw : decInBeat s = some w) :
    decCycle s.pins u = exec (decode (.din w)) u := by
  have ho : decOffered s.pins u = some w := by simpa [decOffered, decInBeat, hu] using hw
  have hrem : u.dec.rem = 0#8 := by simp_all [decTransfer]
  simp [decCycle, ho, hrem]

theorem decCycle_of_emits (he : decEmits s = true) : decCycle s.pins u = .next (decEmit u) := by
  have hrem : u.dec.rem ≠ 0#8 := by simp_all [decEmits]
  have hready : s.pins.decOutReady = true := by simp_all [decEmits]
  simp [decCycle, hrem, hready]

theorem decCycle_of_none_enabled (hr : s.pins.rst = false) (ht : decTransfer s = false) (he : decEmits s = false) :
    decCycle s.pins u = .next u := by
  rcases decCycle_cases s.pins u with ⟨e, -⟩ | ⟨hrem, hready, -⟩ | ⟨w, hrem, ho, -⟩
  · exact e
  · have hs : s.dec.rem ≠ 0#8 := by simpa [hu] using hrem
    simp [decEmits, hr, hs, hready] at he
  · have hs : s.dec.rem = 0#8 := by simpa [hu] using hrem
    have hw : decInBeat s = some w := by simpa [decOffered, decInBeat, hu] using ho
    simp [decTransfer, hr, hs, hw] at ht

end

/-! ## Both parts -/

/-- Where the encoder accepts a beat and the decoder's part is `f` on what that leaves, the step is both in turn. -/
theorem step_of_encTransfer {s : State} {w : EinWord} {f : State → Result} (ht : encTransfer s = true)
    (hw : encInBeat s = some w) (hf : ∀ u, u.dec = (beginCycle s).dec → decCycle s.pins u = f u) :
    step s = andThen (exec (decode (.ein w)) (beginCycle s)) f := by
  rw [step_of_no_reset s (no_reset_of_encTransfer ht), encCycle_of_transfer ht hw]
  obtain ⟨u, e⟩ := exec_next (decode (.ein w)) (beginCycle s)
  obtain ⟨hu, -, -⟩ := exec_ein_rest w _ u e
  rw [e, andThen_next, andThen_next, hf u hu]

/-- Where the encoder accepts nothing, the step is the decoder's part alone. -/
theorem step_of_no_encTransfer {s : State} (hr : s.pins.rst = false) (ht : encTransfer s = false) :
    step s = decCycle s.pins (beginCycle s) := by
  rw [step_of_no_reset s hr, encCycle_of_no_transfer hr ht, andThen_next]

/-- Settles O26: each clause is one combination of the encoder's part and the decoder's. -/
theorem stepRunsDecodedInstruction : Obligations.StepRunsDecodedInstruction := by
  refine ⟨fun s w ht hw hdt hde => ?_, fun s w ht hdt hdw => ?_, fun s w x ht hw hdt hdx => ?_,
    fun s w ht hw hde => ?_, fun s ht hde => ?_, fun s hr ht hdt hde => ?_, fun s => rfl⟩
  · have hr := no_reset_of_encTransfer ht
    rw [step_of_encTransfer ht hw fun u hu => decCycle_of_none_enabled hu hr hdt hde, andThen_pure]
  · rw [step_of_no_encTransfer (no_reset_of_decTransfer hdt) ht, decCycle_of_transfer rfl hdt hdw]
  · exact step_of_encTransfer ht hw fun u hu => decCycle_of_transfer hu hdt hdx
  · exact step_of_encTransfer ht hw fun u hu => decCycle_of_emits hu hde
  · rw [step_of_no_encTransfer (no_reset_of_decEmits hde) ht, decCycle_of_emits rfl hde]
  · rw [step_of_no_encTransfer hr ht, decCycle_of_none_enabled rfl hr hdt hde]

/-! ## Placing a beat (log 12) -/

theorem withFetchWord_ein (s : State) (w : EinWord) : s.withFetchWord 16 w.toNat = placeBeat (.ein w) s := by
  simp [State.withFetchWord, tableBeat_toNat_ein]

theorem withFetchWord_din (s : State) (w : DinWord) : s.withFetchWord 24 w.toNat = placeBeat (.din w) s := by
  simp [State.withFetchWord, tableBeat_toNat_din]

@[simp] theorem pins_placeBeat_ein (w : EinWord) (s : State) : (placeBeat (.ein w) s).pins = Pins.encOnly := rfl

@[simp] theorem pins_placeBeat_din (w : DinWord) (s : State) : (placeBeat (.din w) s).pins = Pins.decOnly := rfl

@[simp] theorem encInBeat_placeBeat (w : EinWord) (s : State) : encInBeat (placeBeat (.ein w) s) = some w := rfl

@[simp] theorem decInBeat_placeBeat (w : DinWord) (s : State) : decInBeat (placeBeat (.din w) s) = some w := rfl

/-- A placed EIN beat is what the cycle executes: the pins let the encoder accept it and the decoder do nothing. -/
theorem step_placeBeat_ein (w : EinWord) (s : State) :
    step (placeBeat (.ein w) s) = exec (decode (.ein w)) (beginCycle (placeBeat (.ein w) s)) := by
  obtain ⟨henc, -⟩ := stepRunsDecodedInstruction
  exact henc _ w (by simp [encTransfer, Pins.encOnly]) (encInBeat_placeBeat w s)
    (by simp [decTransfer, decInBeat, decOffered, Pins.encOnly]) (by simp [decEmits, Pins.encOnly])

/-- A placed DIN beat likewise: the decoder is set idle for it. -/
theorem step_placeBeat_din (w : DinWord) (s : State) :
    step (placeBeat (.din w) s) = exec (decode (.din w)) (beginCycle (placeBeat (.din w) s)) := by
  obtain ⟨-, hdec, -⟩ := stepRunsDecodedInstruction
  exact hdec _ w (by simp [encTransfer, Pins.decOnly])
    (by simp [decTransfer, Pins.decOnly, show (placeBeat (.din w) s).dec.rem = 0#8 from rfl])
    (decInBeat_placeBeat w s)

/-- Settles O28: the word of the encoding is the encoded beat, whose decoding is the instruction. -/
theorem placedWordRunsNext : Obligations.PlacedWordRunsNext := by
  intro i s
  have hdec := decode_encode i
  cases hb : encode i with
  | ein w =>
    rw [hb] at hdec
    obtain ⟨v, hv⟩ := exec_next i (beginCycle (placeBeat (.ein w) s))
    exact ⟨beginCycle (placeBeat (.ein w) s), v,
      ⟨by rw [withFetchWord_ein, step_placeBeat_ein, hdec], rfl, rfl⟩, rfl, rfl, hv⟩
  | din w =>
    rw [hb] at hdec
    obtain ⟨v, hv⟩ := exec_next i (beginCycle (placeBeat (.din w) s))
    exact ⟨beginCycle (placeBeat (.din w) s), v,
      ⟨by rw [withFetchWord_din, step_placeBeat_din, hdec], rfl, rfl⟩, rfl, rfl, hv⟩

/-! ## Every state -/

/-- What a step does to the machine outside the units, reset included. -/
theorem step_cfg_plan {s t : State} (h : step s = .next t) : t.cfg = s.cfg ∧ t.plan = s.plan.tail := by
  cases hr : s.pins.rst with
  | true => simp [step_next_reset s t h hr]
  | false =>
    obtain ⟨-, -, hc, hp⟩ := step_next_move s t h hr
    exact ⟨hc, hp⟩

/-- Settles O27: a step has a next state with or without reset. -/
theorem everyStepGoesOn : Obligations.EveryStepGoesOn := by
  intro s
  obtain ⟨t, h⟩ := step_next s
  exact ⟨t, h, step_cfg_plan h⟩

end Sys2Proof.Machine
end

section
/-! PROOF. What every step keeps (10_state.md R38, 40_encoder.md section 5, 41_decoder.md section 6), one move of a unit
at a time. -/

namespace Sys2Proof.Machine

/-! ## The counter and the strobes -/

section
variable {s : State} {e : Encoder} {n : Nat}

theorem EncMove.counter_le (m : EncMove s e n) (h : CounterInRange s) (hp : e.ph = .run) : e.cnt.toNat ≤ 254 := by
  cases m with
  | stay => exact h hp
  | first | mismatch => simp
  | more _ _ _ _ _ _ hc => simp only [toNat_succ_of_le _ hc]; omega
  | overflow => simp
  | unstated _ _ _ _ hp' _ hc => simpa [hc] using h hp'
  | flush => cases hp
  | empty _ _ _ _ hp' => simp [hp'] at hp

/-- Only the case no run reaches draws a free value. -/
theorem EncMove.freeIdx_eq (m : EncMove s e n) (h : CounterInRange s) : n = s.freeIdx := by
  cases m with
  | unstated _ _ _ _ hp _ hc => simpa [hc] using h hp
  | stay | first | more | overflow | mismatch | flush | empty => rfl

theorem EncMove.idle_of_status (m : EncMove s e n) (h : e.status ≠ none) : e.ph = .idle := by
  cases m with
  | flush => rfl
  | empty _ _ _ _ hp => exact hp
  | stay | first | more | overflow | unstated | mismatch => exact absurd rfl h

theorem EncMove.err_of_errEmpty (m : EncMove s e n) (h : e.status = some .errEmpty) : e.err = true := by
  cases m with
  | empty => rfl
  | stay | first | more | overflow | unstated | mismatch | flush => cases h

/-- A zero count in RUN is the overflow's, or was there before. -/
theorem EncMove.zero_count (m : EncMove s e n) (h : CounterInRange s) (hp : e.ph = .run) (hz : e.cnt = 0#8) :
    (encTransfer s = false ∧ s.enc.ph = .run ∧ s.enc.cnt = 0#8) ∨
    (encTransfer s = true ∧ s.enc.ph = .run ∧ s.enc.cnt = 254#8 ∧
      (encInBeat s).map einEvent = some (.byte s.enc.cur)) := by
  cases m with
  | stay ht => exact .inl ⟨ht, hp, hz⟩
  | overflow w ht hw he hp' hb hc => exact .inr ⟨ht, hp', hc, by simp [hw, einEvent_of_byte he, hb]⟩
  | more _ _ _ _ _ _ hc =>
    have hzero : s.enc.cnt + 1#8 = 0#8 := hz
    have hsucc := toNat_succ_of_le _ hc
    simp [hzero] at hsucc
  | unstated _ _ _ _ hp' _ hc => simpa [hc] using h hp'
  | first | mismatch => cases hz
  | flush => cases hp
  | empty _ _ _ _ hp' => simp [hp'] at hp

end

theorem DecMove.rem_of_done {s : State} {d : Decoder} (m : DecMove s d) (h : d.done = true) : d.rem = 0#8 := by
  cases m with
  | finish _ _ _ _ hr => exact hr
  | stay | emit | load => cases h

theorem step_counterInRange {s t : State} (hs : CounterInRange s) (h : step s = .next t) : CounterInRange t := by
  cases hr : s.pins.rst with
  | true => simp [CounterInRange, step_next_reset s t h hr]
  | false =>
    obtain ⟨m, -, -, -⟩ := step_next_move s t h hr
    exact m.counter_le hs

/-- Settles O35: after a reset both units are idle and nothing is strobed; without one each clause is a fact of the
units' moves. -/
theorem stepKeepsInvariant : Obligations.StepKeepsInvariant := by
  rintro s t ⟨hs, -, -, -⟩ h
  refine ⟨step_counterInRange hs h, ?_⟩
  cases hr : s.pins.rst with
  | true => simp [step_next_reset s t h hr]
  | false =>
    obtain ⟨m, m', -, -⟩ := step_next_move s t h hr
    exact ⟨m.idle_of_status, m.err_of_errEmpty, m'.rem_of_done⟩

theorem stateInv_resetWith (cfg : Config) : StateInv (State.resetWith cfg) := by
  simp [StateInv, CounterInRange, State.resetWith]

/-- Settles O36: the encoder is in IDLE and no strobe is asserted. -/
theorem invariantHoldsAtReset : Obligations.InvariantHoldsAtReset :=
  ⟨stateInv_resetWith _, stateInv_resetWith⟩

/-- Settles O37: a reset leaves IDLE, and of the moves only the overflow makes a zero count. -/
theorem zeroCountComesFromOverflow : Obligations.ZeroCountComesFromOverflow := by
  intro s t hs h hp hz
  cases hr : s.pins.rst with
  | true => simp [step_next_reset s t h hr] at hp
  | false =>
    obtain ⟨m, -, -, -⟩ := step_next_move s t h hr
    simpa using m.zero_count hs hp hz

/-! ## The bytes accounted for -/

theorem beatBytes_cons_of_end {w : EinWord} (h : einEnd w = true) (ws : List EinWord) :
    beatBytes (w :: ws) = beatBytes ws := by
  simp [beatBytes, h]

theorem beatBytes_cons_of_byte {w : EinWord} (h : einEnd w = false) (ws : List EinWord) :
    beatBytes (w :: ws) = einData w :: beatBytes ws := by
  simp [beatBytes, h]

/-- The bytes of the event at the head come before those of the rest. -/
theorem beatBytes_cons (w : EinWord) (ws : List EinWord) :
    beatBytes (w :: ws) = (einEvent w).bytes ++ beatBytes ws := by
  cases he : einEnd w with
  | true => simp [beatBytes_cons_of_end he, einEvent_of_end he]
  | false => simp [beatBytes_cons_of_byte he, einEvent_of_byte he]

/-- A counter in range has an abstract state. -/
theorem exists_encAbs {s : State} (h : CounterInRange s) : ∃ a, encAbs s.enc = some a := by
  cases hp : s.enc.ph with
  | idle => exact ⟨_, encAbs_of_idle _ hp⟩
  | run => exact ⟨_, encAbs_of_run (k := ⟨s.enc.cnt.toNat, by have := h hp; omega⟩) hp rfl rfl⟩

/-- A move conserves the bytes because `enc_step`, which it follows, does. -/
theorem EncMove.encAccount_eq {s t : State} {n : Nat} (m : EncMove s t.enc n) (h : CounterInRange s) :
    encAccount t = encAccount s := by
  cases ht : encTransfer s with
  | false => simp [encAccount, encPending, m.eq_of_no_transfer ht]
  | true =>
    obtain ⟨a, ha⟩ := exists_encAbs h
    obtain ⟨w, hw⟩ := exists_encInBeat_of_transfer ht
    obtain ⟨hin, hnext, hout⟩ := m.refines_encStep ht hw ha
    have hstep := encStep_conserves s.cfg.compatZeroRuns a (einEvent w)
    calc encAccount t
        = decodeSeq s.enc.output ++ (decodeSeq (encStep s.cfg.compatZeroRuns a (einEvent w)).record.toList ++
            (encStep s.cfg.compatZeroRuns a (einEvent w)).next.pending) ++ beatBytes s.enc.input.tail := by
          simp [encAccount, hout, hin, encPending_of_encAbs hnext]
      _ = decodeSeq s.enc.output ++ a.pending ++ beatBytes (w :: s.enc.input.tail) := by
          rw [hstep, beatBytes_cons]
          simp
      _ = encAccount s := by rw [encAccount, encPending_of_encAbs ha, ← encInBeat_head s w hw]

/-- Settles O38: the encoder's move conserves them in either mode. -/
theorem encoderConservesBytes : Obligations.EncoderConservesBytes := by
  intro s t hs hr h
  obtain ⟨m, -, -, -⟩ := step_next_move s t h hr
  exact m.encAccount_eq hs

/-- Settles O39: the decoder's move conserves them. -/
theorem decoderConservesBytes : Obligations.DecoderConservesBytes :=
  fun _ _ hr h => step_decAccount hr h

end Sys2Proof.Machine
end

section
/-! PROOF. The step in closed form from the units' moves, and from it what a step does not depend on: the other unit
(20_memory.md R64, 60_exceptions.md R203), `ENC.ERR` (10_state.md R25), the unspecified registers (R24, R28) and, but
for zero-length records, COMPAT_ZERO_RUNS (40_encoder.md R120). Each is a move carried over to the state changed
there. -/

namespace Sys2Proof.Machine

/-! ## The step from the moves -/

section
variable {s : State}

theorem encCycle_of_byte {w : EinWord} (h : encTransfer s = true) (hw : encInBeat s = some w)
    (he : einEnd w = false) :
    encCycle s.pins (beginCycle s) = exec (.encByte (einData w)) (beginCycle s) := by
  rw [encCycle_of_transfer h hw, decode, decodeEin_of_byte he]

theorem encCycle_of_end {w : EinWord} (h : encTransfer s = true) (hw : encInBeat s = some w)
    (he : einEnd w = true) : encCycle s.pins (beginCycle s) = exec .encEnd (beginCycle s) := by
  rw [encCycle_of_transfer h hw, decode, decodeEin_of_end he]

/-- A move of the encoder is what the cycle computes for it. -/
theorem EncMove.encCycle_eq {e : Encoder} {n : Nat} (m : EncMove s e n) (hr : s.pins.rst = false) :
    encCycle s.pins (beginCycle s) = .next { beginCycle s with enc := e, freeIdx := n } := by
  cases m with
  | stay h => exact encCycle_of_no_transfer hr h
  | first w h hw he hp => exact (encCycle_of_byte h hw he).trans (encByteFirstStartsRun _ (beginCycle s) hp)
  | more w h hw he hp hb hc =>
    obtain ⟨-, hmatch⟩ := encByteMatchCounts _ (beginCycle s) hp hb hc
    exact (encCycle_of_byte h hw he).trans hmatch
  | overflow w h hw he hp hb hc =>
    exact (encCycle_of_byte h hw he).trans (encByteOverflowFlushes255 _ (beginCycle s) hp hb hc)
  | unstated w h hw he hp hb hc =>
    exact (encCycle_of_byte h hw he).trans (exec_encByte_of_cnt_255 _ (beginCycle s) hp hb hc)
  | mismatch w h hw he hp hb =>
    rw [encCycle_of_byte h hw he, encByteMismatchFlushesAndRestarts _ (beginCycle s) hp hb,
      ← flushRecord_toList_of_open]
    simp [hp]
  | flush w h hw he hp =>
    rw [encCycle_of_end h hw he, encEndFlushesLastRun (beginCycle s) hp, ← flushRecord_toList_of_open]
    rfl
  | empty w h hw he hp => exact (encCycle_of_end h hw he).trans (encEndOnIdleRaisesEmptyInput (beginCycle s) hp)

/-- A move of the decoder likewise, whatever the encoder's part has left beside it. -/
theorem DecMove.decCycle_eq {d : Decoder} (m : DecMove s d) (hr : s.pins.rst = false) {u : State}
    (hu : u.dec = (beginCycle s).dec) : decCycle s.pins u = .next { u with dec := d } := by
  obtain ⟨-, hload, -⟩ := decRunLoadsOrWaits
  obtain ⟨-, hend, -⟩ := decEndStrobesOrWaits
  cases m with
  | stay h h' => rw [decCycle_of_none_enabled hu hr h h', ← beginCycle_dec, ← hu]
  | emit h hrem =>
    rw [decCycle_of_emits hu h, decEmit_of_ne u (by simpa [hu] using hrem)]
    exact congrArg _ (state_ext _ _ rfl rfl (by simp [hu]) rfl rfl)
  | load w h hw he hrem =>
    rw [decCycle_of_transfer hu h hw, decode, decodeDin_of_run he, hload _ _ u (by simpa [hu] using hrem)]
    simp [hu]
  | finish w h hw he hrem =>
    rw [decCycle_of_transfer hu h hw, decode, decodeDin_of_end he, hend u (by simpa [hu] using hrem)]
    simp [hu]

/-- A cycle without reset is its two moves side by side. -/
theorem step_of_moves {e : Encoder} {d : Decoder} {n : Nat} (hr : s.pins.rst = false) (m : EncMove s e n)
    (m' : DecMove s d) :
    step s = .next { cfg := s.cfg, enc := e, dec := d, plan := s.plan.tail, freeIdx := n } := by
  rw [step_of_no_reset s hr, m.encCycle_eq hr, andThen_next]
  exact m'.decCycle_eq hr rfl

end

/-! ## What the ports and the moves depend on -/

section
variable {s t : State}

theorem encInBeat_congr (hp : s.pins = t.pins) (hi : s.enc.input = t.enc.input) : encInBeat s = encInBeat t := by
  simp [encInBeat, encOffered, hp, hi]

theorem encTransfer_congr (hp : s.pins = t.pins) (hi : s.enc.input = t.enc.input) :
    encTransfer s = encTransfer t := by
  simp [encTransfer, encInBeat_congr hp hi, hp]

theorem decInBeat_congr (hp : s.pins = t.pins) (hi : s.dec.input = t.dec.input) : decInBeat s = decInBeat t := by
  simp [decInBeat, decOffered, hp, hi]

theorem decTransfer_congr (hp : s.pins = t.pins) (hi : s.dec.input = t.dec.input) (hr : s.dec.rem = t.dec.rem) :
    decTransfer s = decTransfer t := by
  simp [decTransfer, decInBeat_congr hp hi, hp, hr]

theorem decEmits_congr (hp : s.pins = t.pins) (hr : s.dec.rem = t.dec.rem) : decEmits s = decEmits t := by
  simp [decEmits, hp, hr]

/-- The encoder's move depends on the encoder, the pins, the configuration and the free index only: its conditions and
its result, rewritten along these, are those of the same move. -/
theorem EncMove.congr {e : Encoder} {n : Nat} (m : EncMove s e n) (he : s.enc = t.enc) (hp : s.pins = t.pins)
    (hc : s.cfg = t.cfg) (hf : s.freeIdx = t.freeIdx) : EncMove t e n := by
  have hw : encInBeat s = encInBeat t := encInBeat_congr hp (by rw [he])
  have ht : encTransfer s = encTransfer t := encTransfer_congr hp (by rw [he])
  cases m <;> simp only [he, hw, ht, hc, hf] at * <;> constructor <;> assumption

/-- The decoder's move depends on the decoder and the pins only. -/
theorem DecMove.congr {d : Decoder} (m : DecMove s d) (hd : s.dec = t.dec) (hp : s.pins = t.pins) : DecMove t d := by
  have hw : decInBeat s = decInBeat t := decInBeat_congr hp (by rw [hd])
  have ht : decTransfer s = decTransfer t := decTransfer_congr hp (by rw [hd]) (by rw [hd])
  have he : decEmits s = decEmits t := decEmits_congr hp (by rw [hd])
  cases m <;> simp only [hd, hw, ht, he] at * <;> constructor <;> assumption

end

/-! ## `ENC.ERR` -/

/-- The one move that raises the flag is the empty call's (60_exceptions.md R195). -/
theorem EncMove.err_eq {s : State} {e : Encoder} {n : Nat} (m : EncMove s e n) :
    e.err = (s.enc.err || (encTakesEnd s && s.enc.ph == .idle)) := by
  cases m with
  | stay h => simp [encTakesEnd, h]
  | first _ ht hw he | more _ ht hw he | overflow _ ht hw he | unstated _ ht hw he | mismatch _ ht hw he =>
    simp [encTakesEnd_of_beat ht hw, he]
  | flush _ ht hw he hp | empty _ ht hw he hp => simp [encTakesEnd_of_beat ht hw, he, hp]

/-- The move is the same from the other value of the flag. -/
theorem EncMove.of_setErr {s : State} {e : Encoder} {n : Nat} (m : EncMove s e n) (v : Bool) :
    ∃ v', EncMove (setErr v s) { e with err := v' } n := by
  cases m with
  | stay h => exact ⟨v, .stay h⟩
  | first w h hw he hp => exact ⟨v, .first w h hw he hp⟩
  | more w h hw he hp hb hc => exact ⟨v, .more w h hw he hp hb hc⟩
  | overflow w h hw he hp hb hc => exact ⟨v, .overflow w h hw he hp hb hc⟩
  | unstated w h hw he hp hb hc => exact ⟨v, .unstated w h hw he hp hb hc⟩
  | mismatch w h hw he hp hb => exact ⟨v, .mismatch w h hw he hp hb⟩
  | flush w h hw he hp => exact ⟨v, .flush w h hw he hp⟩
  | empty w h hw he hp => exact ⟨true, .empty w h hw he hp⟩

/-- Settles O15: a reset clears the flag and hides the value it had; a move raises it in one case and carries over to
the other value. -/
theorem errFlagIsStickyAndNeverRead : Obligations.ErrFlagIsStickyAndNeverRead := by
  refine ⟨fun s t h => ?_, fun s t v h => ?_, fun s => rfl⟩
  · cases hr : s.pins.rst with
    | true => simp [step_next_reset s t h hr]
    | false =>
      obtain ⟨m, -, -, -⟩ := step_next_move s t h hr
      simpa using m.err_eq
  · cases hr : s.pins.rst with
    | true =>
      obtain rfl := step_next_reset s t h hr
      exact ⟨_, step_of_reset (setErr v s) hr, rfl⟩
    | false =>
      obtain ⟨m, m', hc, hp⟩ := step_next_move s t h hr
      obtain ⟨v', mv⟩ := m.of_setErr v
      exact ⟨_, step_of_moves hr mv (m'.congr rfl rfl), state_ext _ _ hc.symm rfl rfl hp.symm rfl⟩

/-! ## COMPAT_ZERO_RUNS -/

/-- The records a cycle transfers: what ENC_OUT offers, when the event is accepted (20_memory.md R55). -/
def encEmitted (s : State) : List Run := if encTransfer s then (encOutBeat s).toList else []

theorem encEmitted_of_beat {s : State} {w : EinWord} (ht : encTransfer s = true) (hw : encInBeat s = some w) :
    encEmitted s = (encEmit s.cfg.compatZeroRuns s.enc w).toList := by
  simp [encEmitted, ht, encOutBeat, hw]

theorem EncMove.output_eq {s : State} {e : Encoder} {n : Nat} (m : EncMove s e n) :
    e.output = s.enc.output ++ encEmitted s := by
  cases m with
  | stay h => simp [encEmitted, h]
  | first w ht hw he hp | empty w ht hw he hp => simp [encEmitted_of_beat ht hw, encEmit, hp]
  | more w ht hw he hp hb hc =>
    have hne : s.enc.cnt.toNat + 1 ≠ Config.maxRun := fun h => by simp [Nat.succ.inj h] at hc
    simp [encEmitted_of_beat ht hw, encEmit, hp, he, hb, hne]
  | overflow w ht hw he hp hb hc | unstated w ht hw he hp hb hc =>
    simp [encEmitted_of_beat ht hw, encEmit, hp, he, hb, hc, overflowRecord]
  | mismatch w ht hw he hp hb => simp [encEmitted_of_beat ht hw, encEmit, hp, he, hb]
  | flush w ht hw he hp => simp [encEmitted_of_beat ht hw, encEmit, hp, he]

/-- ENC_OUT after any step, reset included. -/
theorem step_encOutput {s t : State} (h : step s = .next t) : t.enc.output = s.enc.output ++ encEmitted s := by
  cases hr : s.pins.rst with
  | true => simp [step_next_reset s t h hr, encEmitted, encTransfer, hr]
  | false => exact (step_next_move s t h hr).1.output_eq

theorem flushRecord_zero (c : Bool) (cur : Byte) :
    flushRecord c cur 0#8 = if c then some { value := cur, length := 0#8 } else none := rfl

theorem flushRecord_of_ne_zero (c : Bool) (cur : Byte) {n : Byte} (h : n ≠ 0#8) :
    flushRecord c cur n = some { value := cur, length := n } := by
  simp [flushRecord, emitOk, h]

/-- In a gated flush at count 0 the setting decides (40_encoder.md R120). -/
theorem encEmit_of_zero_flush (c : Bool) {e : Encoder} {w : EinWord} (hp : e.ph = .run) (hz : e.cnt = 0#8)
    (hw : einEvent w ≠ .byte e.cur) :
    encEmit c e w = if c then some { value := e.cur, length := 0#8 } else none := by
  rw [← flushRecord_zero]
  cases he : einEnd w with
  | true => simp [encEmit, hp, he, hz]
  | false =>
    have hb : einData w ≠ e.cur := fun hb => hw (by rw [einEvent_of_byte he, hb])
    simp [encEmit, hp, he, hb, hz]

/-- Everywhere else it does not. -/
theorem encEmit_of_not_zero_flush (c c' : Bool) {e : Encoder} {w : EinWord}
    (h : ¬(e.ph = .run ∧ e.cnt = 0#8 ∧ einEvent w ≠ .byte e.cur)) : encEmit c e w = encEmit c' e w := by
  cases hp : e.ph with
  | idle => simp [encEmit, hp]
  | run =>
    by_cases hz : e.cnt = 0#8
    · have hw : einEvent w = .byte e.cur := by simpa [hp, hz] using h
      have he : einEnd w = false := by
        cases he : einEnd w with
        | true => simp [einEvent_of_end he] at hw
        | false => rfl
      have hb : einData w = e.cur := by simpa [einEvent_of_byte he] using hw
      simp [encEmit, hp, he, hb]
    · simp [encEmit, hp, flushRecord_of_ne_zero _ _ hz]

theorem encEmitted_of_flushesZeroCount {s : State} (h : FlushesZeroCount s) (c : Config) :
    encEmitted { s with cfg := c } =
      if c.compatZeroRuns then [{ value := s.enc.cur, length := 0#8 }] else [] := by
  obtain ⟨ht, hp, hz, hw⟩ := h
  obtain ⟨w, hb⟩ := exists_encInBeat_of_transfer ht
  have hev : einEvent w ≠ .byte s.enc.cur := by simpa [hb] using hw
  rw [encEmitted_of_beat (s := { s with cfg := c }) ht hb, encEmit_of_zero_flush _ hp hz hev]
  cases c.compatZeroRuns <;> rfl

theorem encEmitted_of_not_flushesZeroCount {s : State} (h : ¬FlushesZeroCount s) (c c' : Config) :
    encEmitted { s with cfg := c } = encEmitted { s with cfg := c' } := by
  cases ht : encTransfer s with
  | false =>
    have hno (x : Config) : encTransfer { s with cfg := x } = false := ht
    simp [encEmitted, hno]
  | true =>
    obtain ⟨w, hb⟩ := exists_encInBeat_of_transfer ht
    rw [encEmitted_of_beat (s := { s with cfg := c }) ht hb, encEmitted_of_beat (s := { s with cfg := c' }) ht hb,
      encEmit_of_not_zero_flush c.compatZeroRuns c'.compatZeroRuns]
    rintro ⟨hp, hz, hw⟩
    exact h ⟨ht, hp, hz, by simpa [hb] using hw⟩

/-- The move under another setting differs at most in ENC_OUT. -/
theorem EncMove.of_cfg {s : State} {e : Encoder} {n : Nat} (m : EncMove s e n) (c : Config) :
    ∃ out, EncMove { s with cfg := c } { e with output := out } n := by
  cases m with
  | stay h => exact ⟨_, .stay h⟩
  | first w h hw he hp => exact ⟨_, .first w h hw he hp⟩
  | more w h hw he hp hb hc => exact ⟨_, .more w h hw he hp hb hc⟩
  | overflow w h hw he hp hb hc => exact ⟨_, .overflow w h hw he hp hb hc⟩
  | unstated w h hw he hp hb hc => exact ⟨_, .unstated w h hw he hp hb hc⟩
  | mismatch w h hw he hp hb => exact ⟨_, .mismatch w h hw he hp hb⟩
  | flush w h hw he hp => exact ⟨_, .flush w h hw he hp⟩
  | empty w h hw he hp => exact ⟨_, .empty w h hw he hp⟩

/-- A step under another setting, but for what it emits. -/
theorem step_of_cfg {s t : State} (h : step s = .next t) (c : Config) :
    ∃ u, step { s with cfg := c } = .next u ∧ u.cfg = c ∧ u.dec = t.dec ∧ u.plan = t.plan ∧
      u.enc = { t.enc with output := u.enc.output } := by
  cases hr : s.pins.rst with
  | true =>
    obtain rfl := step_next_reset s t h hr
    exact ⟨_, step_of_reset { s with cfg := c } hr, rfl, rfl, rfl, rfl⟩
  | false =>
    obtain ⟨m, m', -, hp⟩ := step_next_move s t h hr
    obtain ⟨out, mc⟩ := m.of_cfg c
    exact ⟨_, step_of_moves hr mc (m'.congr rfl rfl), rfl, rfl, hp.symm, rfl⟩

/-- Settles O18: the setting is read only where the record is made, and there only at a gated flush of count 0. -/
theorem compatGatesOnlyZeroRecords : Obligations.CompatGatesOnlyZeroRecords := by
  refine ⟨fun s t c h => ?_, fun s t u ht hu => ⟨fun hz => ?_, fun hz => ?_⟩⟩
  · obtain ⟨u, hu, hcfg, hdec, hplan, henc⟩ := step_of_cfg h c
    refine ⟨u, hu, hcfg, hdec, hplan, henc, ?_⟩
    have hout : u.enc.output = s.enc.output ++ encEmitted { s with cfg := c } := step_encOutput hu
    have hout' : t.enc.output = s.enc.output ++ encEmitted { s with cfg := s.cfg } := step_encOutput h
    rw [hout, hout']
    by_cases hz : FlushesZeroCount s
    · rw [encEmitted_of_flushesZeroCount hz, encEmitted_of_flushesZeroCount hz]
      cases c.compatZeroRuns <;> cases s.cfg.compatZeroRuns <;> simp
    · exact .inl (by rw [encEmitted_of_not_flushesZeroCount hz c s.cfg])
  · rw [step_encOutput ht, step_encOutput hu, encEmitted_of_flushesZeroCount hz, encEmitted_of_flushesZeroCount hz]
    exact ⟨rfl, List.append_nil _⟩
  · rw [step_encOutput ht, step_encOutput hu, encEmitted_of_not_flushesZeroCount hz]

/-! ## The other unit -/

theorem pins_eq_of_plan_eq {s t : State} (h : s.plan = t.plan) : s.pins = t.pins := congrArg Plan.head h

/-- What a step makes of the encoder depends on nothing of the decoder. -/
theorem step_enc_congr {s t s' t' : State} (he : s.enc = t.enc) (hc : s.cfg = t.cfg) (hp : s.plan = t.plan)
    (hf : s.freeIdx = t.freeIdx) (hs : step s = .next s') (ht : step t = .next t') :
    s'.enc = t'.enc ∧ s'.freeIdx = t'.freeIdx := by
  have hpins := pins_eq_of_plan_eq hp
  cases hr : s.pins.rst with
  | true =>
    rw [step_next_reset s s' hs hr, step_next_reset t t' ht (hpins ▸ hr)]
    simp [resetUnits, he, hf]
  | false =>
    have hr' : t.pins.rst = false := hpins ▸ hr
    obtain ⟨m, -, -, -⟩ := step_next_move s s' hs hr
    obtain ⟨-, d, -, -⟩ := step_next_move t t' ht hr'
    have heq := Host.Outcome.next.inj ((step_of_moves hr' (m.congr he hpins hc hf) d).symm.trans ht)
    rw [← heq]
    exact ⟨rfl, rfl⟩

/-- What a step makes of the decoder depends on nothing of the encoder or the configuration. -/
theorem step_dec_congr {s t s' t' : State} (hd : s.dec = t.dec) (hp : s.plan = t.plan) (hf : s.freeIdx = t.freeIdx)
    (hs : step s = .next s') (ht : step t = .next t') : s'.dec = t'.dec := by
  have hpins := pins_eq_of_plan_eq hp
  cases hr : s.pins.rst with
  | true =>
    rw [step_next_reset s s' hs hr, step_next_reset t t' ht (hpins ▸ hr)]
    simp [resetUnits, hd, hf]
  | false =>
    have hr' : t.pins.rst = false := hpins ▸ hr
    obtain ⟨-, d, -, -⟩ := step_next_move s s' hs hr
    obtain ⟨m, -, -, -⟩ := step_next_move t t' ht hr'
    have heq := Host.Outcome.next.inj ((step_of_moves hr' m (d.congr hd hpins)).symm.trans ht)
    rw [← heq]

/-- With the counter in range the free index moves by the cycle's reset alone. -/
theorem step_freeIdx {s t : State} (hs : CounterInRange s) (h : step s = .next t) :
    t.freeIdx = if s.pins.rst then s.freeIdx + 3 else s.freeIdx := by
  cases hr : s.pins.rst with
  | true => rw [step_next_reset s t h hr]; rfl
  | false =>
    obtain ⟨m, -, -, -⟩ := step_next_move s t h hr
    exact m.freeIdx_eq hs

/-- Settles O40: each unit's move carries over to the state with another other unit. -/
theorem unitsDoNotInteract : Obligations.UnitsDoNotInteract := by
  refine ⟨fun s t s' t' he hc hp hf hs ht => ?_, fun s t s' t' hd hp hf hs ht => ?_⟩
  all_goals
    obtain ⟨hc₁, hp₁⟩ := step_cfg_plan hs
    obtain ⟨hc₂, hp₂⟩ := step_cfg_plan ht
    have hplan : s'.plan = t'.plan := by rw [hp₁, hp₂, hp]
  · obtain ⟨henc, hfree⟩ := step_enc_congr he hc hp hf hs ht
    exact ⟨henc, by rw [hc₁, hc₂, hc], hplan, hfree⟩
  · refine ⟨step_dec_congr hd hp hf hs ht, hplan, fun hrs hrt => ?_⟩
    have hfree : s'.freeIdx = t'.freeIdx := by
      rw [step_freeIdx hrs hs, step_freeIdx hrt ht, pins_eq_of_plan_eq hp, hf]
    exact ⟨hfree, step_counterInRange hrs hs, step_counterInRange hrt ht⟩

/-! ## The unspecified registers -/

section
variable (e : Encoder) (d : Decoder)

@[simp] theorem encObservable_ph : (encObservable e).ph = e.ph := by cases h : e.ph <;> simp [encObservable, h]
@[simp] theorem encObservable_err : (encObservable e).err = e.err := by cases h : e.ph <;> simp [encObservable, h]
@[simp] theorem encObservable_input : (encObservable e).input = e.input := by
  cases h : e.ph <;> simp [encObservable, h]
@[simp] theorem encObservable_output : (encObservable e).output = e.output := by
  cases h : e.ph <;> simp [encObservable, h]
@[simp] theorem encObservable_status : (encObservable e).status = e.status := by
  cases h : e.ph <;> simp [encObservable, h]

theorem encObservable_of_run (h : e.ph = .run) : encObservable e = e := by simp [encObservable, h]

@[simp] theorem decObservable_rem : (decObservable d).rem = d.rem := by
  by_cases h : d.rem = 0#8 <;> simp [decObservable, h]
@[simp] theorem decObservable_input : (decObservable d).input = d.input := by
  by_cases h : d.rem = 0#8 <;> simp [decObservable, h]
@[simp] theorem decObservable_output : (decObservable d).output = d.output := by
  by_cases h : d.rem = 0#8 <;> simp [decObservable, h]
@[simp] theorem decObservable_done : (decObservable d).done = d.done := by
  by_cases h : d.rem = 0#8 <;> simp [decObservable, h]

theorem decObservable_of_rem_ne_zero (h : d.rem ≠ 0#8) : decObservable d = d := by simp [decObservable, h]

end

/-- With the counter in range the move does not depend on the free index. -/
theorem EncMove.of_freeIdx {s : State} {e : Encoder} {n : Nat} (m : EncMove s e n) (hs : CounterInRange s) (k : Nat) :
    EncMove { s with freeIdx := k } e k := by
  cases m with
  | stay h => exact .stay h
  | first w h hw he hp => exact .first w h hw he hp
  | more w h hw he hp hb hc => exact .more w h hw he hp hb hc
  | overflow w h hw he hp hb hc => exact .overflow w h hw he hp hb hc
  | unstated w h hw he hp hb hc => simpa [hc] using hs hp
  | mismatch w h hw he hp hb => exact .mismatch w h hw he hp hb
  | flush w h hw he hp => exact .flush w h hw he hp
  | empty w h hw he hp => exact .empty w h hw he hp

section
variable {s t : State} (hpins : s.pins = t.pins)
include hpins

/-- The encoder's move carries over to another state that looks the same: in RUN the registers are equal, in IDLE no
move reads those that may differ. -/
theorem EncMove.of_observable {e : Encoder} {n : Nat} (m : EncMove s e n) (hs : CounterInRange s)
    (hc : s.cfg = t.cfg) (ho : encObservable s.enc = encObservable t.enc) :
    ∃ e', EncMove t e' t.freeIdx ∧ encObservable e = encObservable e' := by
  have hph : s.enc.ph = t.enc.ph := by simpa using congrArg Encoder.ph ho
  have herr : s.enc.err = t.enc.err := by simpa using congrArg Encoder.err ho
  have hin : s.enc.input = t.enc.input := by simpa using congrArg Encoder.input ho
  have hout : s.enc.output = t.enc.output := by simpa using congrArg Encoder.output ho
  cases hp : s.enc.ph with
  | run =>
    have heq : s.enc = t.enc := by
      rwa [encObservable_of_run _ hp, encObservable_of_run _ (hph ▸ hp)] at ho
    exact ⟨e, (m.of_freeIdx hs t.freeIdx).congr heq hpins hc rfl, rfl⟩
  | idle =>
    have hpt : t.enc.ph = .idle := hph ▸ hp
    have htr : encTransfer s = encTransfer t := encTransfer_congr hpins hin
    have hbeat : encInBeat s = encInBeat t := encInBeat_congr hpins hin
    cases m with
    | stay h =>
      exact ⟨_, .stay (htr ▸ h), by simp [encObservable, hp, hpt, herr, hin, hout]⟩
    | first w h hw he =>
      exact ⟨_, .first w (htr ▸ h) (hbeat ▸ hw) he hpt, by simp [encObservable, herr, hin, hout]⟩
    | empty w h hw he =>
      exact ⟨_, .empty w (htr ▸ h) (hbeat ▸ hw) he hpt, by simp [encObservable, hp, hpt, hin, hout]⟩
    | more _ _ _ _ hrun | overflow _ _ _ _ hrun | unstated _ _ _ _ hrun | mismatch _ _ _ _ hrun
    | flush _ _ _ _ hrun => simp [hp] at hrun

/-- The decoder's move likewise: with `REM = 0` no move reads `VAL`. -/
theorem DecMove.of_observable {d : Decoder} (m : DecMove s d) (ho : decObservable s.dec = decObservable t.dec) :
    ∃ d', DecMove t d' ∧ decObservable d = decObservable d' := by
  have hrem : s.dec.rem = t.dec.rem := by simpa using congrArg Decoder.rem ho
  have hin : s.dec.input = t.dec.input := by simpa using congrArg Decoder.input ho
  have hout : s.dec.output = t.dec.output := by simpa using congrArg Decoder.output ho
  by_cases hr : s.dec.rem = 0#8
  · have hrt : t.dec.rem = 0#8 := hrem ▸ hr
    have htr : decTransfer s = decTransfer t := decTransfer_congr hpins hin hrem
    have hbeat : decInBeat s = decInBeat t := decInBeat_congr hpins hin
    have hemit : decEmits s = decEmits t := decEmits_congr hpins hrem
    cases m with
    | stay h h' => exact ⟨_, .stay (htr ▸ h) (hemit ▸ h'), by simp [decObservable, hr, hrt, hin, hout]⟩
    | emit _ hne => exact absurd hr hne
    | load w h hw he => exact ⟨_, .load w (htr ▸ h) (hbeat ▸ hw) he hrt, by simp [hin, hout]⟩
    | finish w h hw he =>
      exact ⟨_, .finish w (htr ▸ h) (hbeat ▸ hw) he hrt, by simp [decObservable, hr, hrt, hin, hout]⟩
  · have heq : s.dec = t.dec := by
      rwa [decObservable_of_rem_ne_zero _ hr, decObservable_of_rem_ne_zero _ (hrem ▸ hr)] at ho
    exact ⟨d, m.congr heq hpins, rfl⟩

end

/-- A reset makes any two states look the same that had the same streams. -/
theorem indistinguishable_resetUnits {s t : State} (h : Indistinguishable s t) :
    Indistinguishable (resetUnits (beginCycle s)) (resetUnits (beginCycle t)) := by
  obtain ⟨hc, hp, he, hd⟩ := h
  have hein : s.enc.input = t.enc.input := by simpa using congrArg Encoder.input he
  have heout : s.enc.output = t.enc.output := by simpa using congrArg Encoder.output he
  have hdin : s.dec.input = t.dec.input := by simpa using congrArg Decoder.input hd
  have hdout : s.dec.output = t.dec.output := by simpa using congrArg Decoder.output hd
  refine ⟨hc, congrArg Plan.tail hp, ?_, ?_⟩
  · simp [encObservable, resetUnits, hein, heout]
  · simp [decObservable, resetUnits, hdin, hdout]

theorem step_indistinguishable {s t s' : State} (hs : CounterInRange s) (h : Indistinguishable s t)
    (hstep : step s = .next s') : ∃ t', step t = .next t' ∧ Indistinguishable s' t' := by
  obtain ⟨hc, hp, he, hd⟩ := h
  have hpins := pins_eq_of_plan_eq hp
  cases hr : s.pins.rst with
  | true =>
    rw [step_next_reset s s' hstep hr]
    exact ⟨_, step_of_reset t (hpins ▸ hr), indistinguishable_resetUnits ⟨hc, hp, he, hd⟩⟩
  | false =>
    obtain ⟨m, m', hc', hp'⟩ := step_next_move s s' hstep hr
    obtain ⟨e, hm, hoe⟩ := m.of_observable hpins hs hc he
    obtain ⟨d, hm', hod⟩ := m'.of_observable hpins hd
    exact ⟨_, step_of_moves (hpins ▸ hr) hm hm', hc'.trans hc, hp'.trans (congrArg Plan.tail hp), hoe, hod⟩

/-- Settles O41: the step carries over, and what looks the same has the same streams, strobes and flag. -/
theorem unspecifiedRegistersUnobservable : Obligations.UnspecifiedRegistersUnobservable := by
  intro s t s' hs h hstep
  obtain ⟨t', ht, hi⟩ := step_indistinguishable hs h hstep
  have ⟨_, _, he, hd⟩ := hi
  exact ⟨t', ht, hi, by simpa using congrArg Encoder.output he, by simpa using congrArg Decoder.output hd,
    by simpa using congrArg Encoder.status he, by simpa using congrArg Decoder.done hd,
    by simpa using congrArg Encoder.err he⟩

end Sys2Proof.Machine
end

section
/-! PROOF. Any number of cycles (20_memory.md section 4, 42_sequence_functions.md section 1). One induction over the
cycles of a run serves every claim about runs; a claim's own content is what one step does. -/

namespace Sys2Proof.Machine

/-! ## Runs -/

/-- What relates a state to itself, and is kept by putting a step before the run, relates a run's two ends; `P` is
what the host's pins meet in every cycle of it. -/
theorem runFor_induction {P : Pins → Prop} {motive : Nat → State → State → Prop} (zero : ∀ s, motive 0 s s)
    (succ : ∀ n s u t, P s.pins → step s = .next u → motive n u t → motive (n + 1) s t) (n : Nat) (s t : State)
    (hP : ∀ k < n, P (s.plan.pinsAt k)) (h : runFor n s = .next t) : motive n s t := by
  induction n generalizing s with
  | zero =>
    obtain rfl : s = t := by simpa using h
    exact zero s
  | succ n ih =>
    obtain ⟨u, hu⟩ := step_next s
    obtain ⟨-, hp⟩ := step_cfg_plan hu
    rw [runFor_succ, hu, andThen_next] at h
    exact succ n s u t (plan_head_of_lt P s n hP) hu (ih u (plan_tail_of_lt P s u n hP hp) h)

theorem runFor_pinsAt (n : Nat) (s t : State) (h : runFor n s = .next t) (k : Nat) :
    t.plan.pinsAt k = s.plan.pinsAt (k + n) := by
  refine runFor_induction (P := fun _ => True) (motive := fun n s t => t.plan.pinsAt k = s.plan.pinsAt (k + n))
    (fun s => rfl) (fun n s u t _ hu ih => ?_) n s t (fun _ _ => trivial) h
  obtain ⟨-, hp⟩ := step_cfg_plan hu
  rw [ih, hp, pinsAt_tail, Nat.add_assoc]

/-- Two runs, one after the other. -/
theorem runFor_trans {m n : Nat} {s t u : State} (h : runFor m s = .next t) (h' : runFor n t = .next u) :
    runFor (m + n) s = .next u := by
  rw [runFor_add, h, andThen_next, h']

theorem runFor_succ_of_step {n : Nat} {s t u : State} (h : step s = .next t) (h' : runFor n t = .next u) :
    runFor (n + 1) s = .next u := by
  rw [runFor_succ, h, andThen_next, h']

/-! ## The eager host -/

theorem pins_of_eagerHost {s : State} (h : EagerHost s) : s.pins = Pins.eager := congrArg Plan.head h

theorem step_eagerHost {s t : State} (hs : EagerHost s) (h : step s = .next t) : EagerHost t := by
  obtain ⟨-, hp⟩ := step_cfg_plan h
  rw [EagerHost, hp, hs, planTail_eager]

theorem noResetFor_of_eagerHost {s : State} (h : EagerHost s) (n : Nat) : NoResetFor n s := by
  intro k _
  rw [h, pinsAt_eager]
  rfl

theorem runFor_eagerHost (n : Nat) (s t : State) (hs : EagerHost s) (h : runFor n s = .next t) : EagerHost t :=
  runFor_induction (P := fun _ => True) (motive := fun _ s t => EagerHost s → EagerHost t) (fun _ hs => hs)
    (fun _ _ _ _ _ hu ih hs => ih (step_eagerHost hs hu)) n s t (fun _ _ => trivial) h hs

/-! ## The decoder's runs -/

theorem DecMove.input_suffix {s : State} {d : Decoder} (m : DecMove s d) : d.input <:+ s.dec.input := by
  cases m with
  | stay | emit => exact List.suffix_refl _
  | load | finish => exact List.tail_suffix _

/-- DEC_OUT only grows and DEC_IN loses beats only at its head. -/
theorem runFor_decStreams (n : Nat) (s t : State) (hr : NoResetFor n s) (h : runFor n s = .next t) :
    s.dec.output <+: t.dec.output ∧ t.dec.input <:+ s.dec.input := by
  refine runFor_induction (P := fun p => p.rst = false)
    (motive := fun _ s t => s.dec.output <+: t.dec.output ∧ t.dec.input <:+ s.dec.input)
    (fun s => ⟨List.prefix_refl _, List.suffix_refl _⟩) (fun n s u t hr hu ih => ?_) n s t hr h
  obtain ⟨hout, hin⟩ := ih
  obtain ⟨-, m, -, -⟩ := step_next_move s u hu hr
  refine ⟨List.IsPrefix.trans ?_ hout, hin.trans m.input_suffix⟩
  rw [m.output_eq]
  split
  · exact List.prefix_append _ _
  · exact List.prefix_refl _

/-- Settles O43: the streams move one way, and the bytes accounted for stay the same. -/
theorem decoderEmitsRunsInOrder : Obligations.DecoderEmitsRunsInOrder := by
  intro n s t hr hidle h
  have hacc := runFor_decAccount n s t hr h
  obtain ⟨hout, hin⟩ := runFor_decStreams n s t hr h
  refine ⟨?_, hout, hin, hacc⟩
  rw [← decAccount_of_idle s hidle, ← hacc]
  exact output_prefix_decAccount t

/-- A decoder that is idle with nothing waiting stays so. -/
theorem runFor_dec_of_nothing_waiting (n : Nat) (s t : State) (hr : NoResetFor n s) (hidle : s.dec.rem = 0#8)
    (hin : s.dec.input = []) (h : runFor n s = .next t) :
    t.dec.rem = 0#8 ∧ t.dec.input = [] ∧ t.dec.output = s.dec.output := by
  obtain ⟨-, ⟨bs, hout⟩, hsuff, hacc⟩ := decoderEmitsRunsInOrder n s t hr hidle h
  have hin' : t.dec.input = [] := by simpa [hin] using hsuff
  rw [decAccount_of_idle s hidle, decAccount, ← hout, hin, hin'] at hacc
  have hnil : bs = [] ∧ List.replicate t.dec.rem.toNat t.dec.val = [] := by
    simpa [beatRuns, decodeSeq] using hacc
  obtain ⟨rfl, hrem⟩ := hnil
  exact ⟨BitVec.eq_of_toNat_eq (by simpa using hrem), hin', by simpa using hout.symm⟩

section
variable {s : State} {w : DinWord} {ws : List DinWord} (hs : EagerHost s) (hr : s.dec.rem = 0#8)
  (hin : s.dec.input = w :: ws)
include hs hr hin

/-- An idle decoder accepts the beat at the head of DEC_IN. -/
theorem decTransfer_of_eagerHost : decTransfer s = true ∧ decInBeat s = some w := by
  have hp := pins_of_eagerHost hs
  have hw : decInBeat s = some w := by simp [decInBeat, decOffered, hp, hin, Pins.eager]
  exact ⟨by simp [decTransfer, hw, hp, hr, Pins.eager], hw⟩

theorem step_dec_of_run {v l : Byte} (hw : decodeDin w = .decRun v l) :
    ∃ t, step s = .next t ∧ EagerHost t ∧
      t.dec = { s.dec with val := v, rem := l, input := ws, done := false } := by
  obtain ⟨ht, hb⟩ := decTransfer_of_eagerHost hs hr hin
  obtain ⟨t, h, -, m, -, -⟩ := step_move s (no_reset_of_decTransfer ht)
  refine ⟨t, h, step_eagerHost hs h, ?_⟩
  rw [m.eq_of_decRun ht (by rw [hb, Option.map_some, hw]), hin, List.tail_cons]

theorem step_dec_of_end (hw : decodeDin w = .decEnd) :
    ∃ t, step s = .next t ∧ t.dec = { s.dec with input := ws, done := true } := by
  obtain ⟨ht, hb⟩ := decTransfer_of_eagerHost hs hr hin
  obtain ⟨t, h, -, m, -, -⟩ := step_move s (no_reset_of_decTransfer ht)
  refine ⟨t, h, ?_⟩
  rw [m.eq_of_decEnd ht (by rw [hb, Option.map_some, hw]), hin, List.tail_cons]

end

theorem decodeDin_dinRun (v l : Byte) : decodeDin (dinRun v l) = .decRun v l := decode_encode (.decRun v l)

theorem decodeDin_dinEndBeat : decodeDin dinEndBeat = .decEnd := decode_encode .decEnd

/-- Settles O24: the accepted run is loaded, and then `REM` counts the emit steps. -/
theorem decRunExpandsInLengthSteps : Obligations.DecRunExpandsInLengthSteps := by
  intro v l rest s hs hr hin
  obtain ⟨u, hu, hu', hd⟩ := step_dec_of_run hs hr hin (decodeDin_dinRun v l)
  have hready : ∀ k < l.toNat, (u.plan.pinsAt k).rst = false ∧ (u.plan.pinsAt k).decOutReady = true := by
    intro k _
    rw [hu', pinsAt_eager]
    exact ⟨rfl, rfl⟩
  obtain ⟨t, ht, hrem, hval, htin, hout⟩ := runFor_emits l.toNat u (by rw [hd]) hready
  refine ⟨t, runFor_succ_of_step hu ht, ?_⟩
  simp [hrem, hval, htin, hout, hd]

theorem decBeats_runsEvents_cons (r : Run) (rs : List Run) :
    decBeats (runsEvents (r :: rs)) = dinRun r.value r.length :: decBeats (runsEvents rs) := rfl

/-- Settles O45, by induction on the runs: each is one accepted beat and its emit steps. -/
theorem decoderComputesDecode : Obligations.DecoderComputesDecode := by
  intro rs rest s hs hr hin
  induction rs generalizing s with
  | nil =>
    obtain ⟨t, ht, hd⟩ := step_dec_of_end hs hr hin decodeDin_dinEndBeat
    refine ⟨t, runFor_succ_of_step ht (runFor_zero t), ?_⟩
    simp [hd, hr, decodeSeq, decDone]
  | cons r rs ih =>
    rw [decBeats_runsEvents_cons, List.cons_append] at hin
    obtain ⟨u, hu, -, hur, huin, huout⟩ := decRunExpandsInLengthSteps r.value r.length _ s hs hr hin
    obtain ⟨t, ht, htr, htin, htout, hdone⟩ := ih u (runFor_eagerHost _ s u hs hu) hur huin
    have hsteps : (r :: rs).length + (decodeSeq (r :: rs)).length + 1 =
        r.length.toNat + 1 + (rs.length + (decodeSeq rs).length + 1) := by
      simp only [decodeSeq, List.length_append, List.length_replicate, List.length_cons]
      omega
    refine ⟨t, by rw [hsteps, runFor_trans hu ht], htr, htin, ?_, hdone⟩
    rw [htout, huout, decodeSeq, List.append_assoc]

/-! ## The encoder's runs -/

/-- Apart from the registers, `enc_step` gives the strobe and the flag of the accepted event. -/
theorem EncMove.strobes_of_encStep {s : State} {e : Encoder} {n : Nat} (m : EncMove s e n) {w : EinWord} {a : EncState}
    (ht : encTransfer s = true) (hw : encInBeat s = some w) (ha : encAbs s.enc = some a) :
    e.status = (encStep s.cfg.compatZeroRuns a (einEvent w)).status ∧
      e.err = (s.enc.err || (encStep s.cfg.compatZeroRuns a (einEvent w)).status == some .errEmpty) := by
  rw [m.status_eq, m.err_eq, encTakesEnd_of_beat ht hw]
  cases he : einEnd w with
  | false =>
    obtain ⟨-, hst⟩ := encStep_byte_next_status s.cfg.compatZeroRuns a (einData w)
    simp [einEvent_of_byte he, hst]
  | true =>
    rw [einEvent_of_end he]
    cases hp : s.enc.ph with
    | idle => simp [eq_idle_of_encAbs ha hp, encStep]
    | run =>
      obtain ⟨_, rfl⟩ := eq_run_of_encAbs ha hp
      exact ⟨rfl, rfl⟩

/-- A cycle that accepts a beat, on the abstract state (40_encoder.md R121). -/
theorem step_enc_of_transfer {s u : State} {a : EncState} (ht : encTransfer s = true) (ha : encAbs s.enc = some a)
    (h : step s = .next u) :
    ∃ w, s.enc.input = w :: u.enc.input ∧
      (let o := encStep s.cfg.compatZeroRuns a (einEvent w)
       encAbs u.enc = some o.next ∧ u.enc.output = s.enc.output ++ o.record.toList ∧ u.enc.status = o.status ∧
         u.enc.err = (s.enc.err || o.status == some .errEmpty)) := by
  obtain ⟨w, hw⟩ := exists_encInBeat_of_transfer ht
  obtain ⟨m, -, -, -⟩ := step_next_move s u h (no_reset_of_encTransfer ht)
  obtain ⟨hin, hnext, hout⟩ := m.refines_encStep ht hw ha
  exact ⟨w, hin ▸ encInBeat_head s w hw, hnext, hout, m.strobes_of_encStep ht hw ha⟩

theorem contains_optionToList (o : Option EncStatus) (x : EncStatus) : o.toList.contains x = (o == some x) := by
  rw [Bool.eq_iff_iff]
  cases o with
  | none => simp
  | some y => simpa using eq_comm

/-- What a run has done to the encoder once it has accepted the events `es` from the abstract state `a`. -/
def EncFollows (c : Bool) (a : EncState) (es : List EncEvent) (e e' : Encoder) : Prop :=
  let tr := encTrace c a es
  encAbs e' = some tr.final ∧ e'.output = e.output ++ tr.records ∧
    e'.err = (e.err || tr.statuses.contains .errEmpty)

theorem EncFollows.nil {c : Bool} {a : EncState} {e : Encoder} (h : encAbs e = some a) : EncFollows c a [] e e :=
  ⟨h, by simp [encTrace], by simp [encTrace]⟩

/-- An accepted event before those of the rest of the run. -/
theorem EncFollows.cons {c : Bool} {a : EncState} {ev : EncEvent} {es : List EncEvent} {e e₁ e' : Encoder}
    (hout : e₁.output = e.output ++ (encStep c a ev).record.toList)
    (herr : e₁.err = (e.err || (encStep c a ev).status == some .errEmpty))
    (h : EncFollows c (encStep c a ev).next es e₁ e') : EncFollows c a (ev :: es) e e' := by
  obtain ⟨hfinal, hout', herr'⟩ := h
  refine ⟨hfinal, ?_, ?_⟩
  · simp [hout', hout, encTrace]
  · simp only [herr', herr, encTrace, List.contains_append, contains_optionToList, Bool.or_assoc]

/-- Settles O42: a cycle accepts the beat at the head of ENC_IN or nothing. -/
theorem encoderIsAFunctionOfAcceptedEvents : Obligations.EncoderIsAFunctionOfAcceptedEvents := by
  intro n s t a hr ha h
  refine runFor_induction (P := fun p => p.rst = false)
    (motive := fun n s t => ∀ a, encAbs s.enc = some a → ∃ k, k ≤ n ∧ t.enc.input = s.enc.input.drop k ∧
      EncFollows s.cfg.compatZeroRuns a ((s.enc.input.take k).map einEvent) s.enc t.enc)
    (fun s a ha => ⟨0, le_refl 0, rfl, EncFollows.nil ha⟩) (fun n s u t hr hu ih a ha => ?_) n s t hr h a ha
  obtain ⟨hcfg, -⟩ := step_cfg_plan hu
  cases ht : encTransfer s with
  | false =>
    obtain ⟨m, -, -, -⟩ := step_next_move s u hu hr
    have hstay := m.eq_of_no_transfer ht
    rw [hcfg, hstay] at ih
    obtain ⟨k, hk, hin, hf⟩ := ih a ha
    exact ⟨k, by omega, hin, hf⟩
  | true =>
    obtain ⟨w, hw, hnext, hout, -, herr⟩ := step_enc_of_transfer ht ha hu
    obtain ⟨k, hk, hin, hf⟩ := ih _ hnext
    rw [hcfg] at hf
    refine ⟨k + 1, by omega, ?_, ?_⟩
    · rw [hin, hw, List.drop_succ_cons]
    · rw [hw, List.take_succ_cons, List.map_cons]
      exact EncFollows.cons hout herr hf

/-! ## A whole call -/

theorem encTransfer_of_eagerHost {s : State} {w : EinWord} {ws : List EinWord} (hs : EagerHost s)
    (hin : s.enc.input = w :: ws) : encTransfer s = true := by
  simp [encTransfer, encInBeat, encOffered, pins_of_eagerHost hs, hin, Pins.eager]

/-- With an eager host a step accepts the event at the head of ENC_IN. -/
theorem step_enc_of_eagerHost {s : State} {a : EncState} {ev : EncEvent} {ws : List EinWord} (hs : EagerHost s)
    (ha : encAbs s.enc = some a) (hin : s.enc.input = ev.beat :: ws) :
    ∃ u, step s = .next u ∧ EagerHost u ∧ u.cfg = s.cfg ∧ u.enc.input = ws ∧
      (let o := encStep s.cfg.compatZeroRuns a ev
       encAbs u.enc = some o.next ∧ u.enc.output = s.enc.output ++ o.record.toList ∧ u.enc.status = o.status ∧
         u.enc.err = (s.enc.err || o.status == some .errEmpty)) := by
  obtain ⟨u, hu⟩ := step_next s
  obtain ⟨hcfg, -⟩ := step_cfg_plan hu
  obtain ⟨w, hw, hstep⟩ := step_enc_of_transfer (encTransfer_of_eagerHost hs hin) ha hu
  obtain ⟨rfl, rfl⟩ := List.cons.inj (hin.symm.trans hw)
  rw [einEvent_beat] at hstep
  exact ⟨u, hu, step_eagerHost hs hu, hcfg, rfl, hstep⟩

theorem encBeats_seqEvents_cons (b : Byte) (d : List Byte) :
    encBeats (seqEvents (b :: d)) = (EncEvent.byte b).beat :: encBeats (seqEvents d) := rfl

/-- A call from any abstract state, by induction on its bytes. -/
theorem runFor_seqEvents (d : List Byte) (rest : List EinWord) (s : State) (a : EncState) (hs : EagerHost s)
    (ha : encAbs s.enc = some a) (hin : s.enc.input = encBeats (seqEvents d) ++ rest) :
    ∃ t, runFor (d.length + 1) s = .next t ∧ t.enc.input = rest ∧
      EncFollows s.cfg.compatZeroRuns a (seqEvents d) s.enc t.enc ∧
      t.enc.status = some (if a = .idle ∧ d = [] then .errEmpty else .done) := by
  induction d generalizing s a with
  | nil =>
    obtain ⟨t, ht, -, -, htin, hnext, hout, hst, herr⟩ := step_enc_of_eagerHost (ev := .finish) hs ha hin
    refine ⟨t, runFor_succ_of_step ht (runFor_zero t), htin, EncFollows.cons hout herr (EncFollows.nil hnext), ?_⟩
    rw [hst]
    cases a <;> simp [encStep]
  | cons b d ih =>
    rw [encBeats_seqEvents_cons, List.cons_append] at hin
    obtain ⟨u, hu, hs', hcfg, huin, hnext, hout, -, herr⟩ := step_enc_of_eagerHost hs ha hin
    obtain ⟨t, ht, htin, hf, hst⟩ := ih u _ hs' hnext huin
    rw [hcfg] at hf
    obtain ⟨hrun, -⟩ := encStep_byte_next_status s.cfg.compatZeroRuns a b
    exact ⟨t, runFor_succ_of_step hu ht, htin, EncFollows.cons hout herr hf, by simp [hst, hrun]⟩

theorem idle_of_encAbs {e : Encoder} (h : encAbs e = some .idle) : e.ph = .idle := by
  cases hp : e.ph with
  | idle => rfl
  | run =>
    obtain ⟨_, hrun⟩ := eq_run_of_encAbs h hp
    cases hrun

/-- Settles O44: the run of the call follows `enc_step` over its events, which is what `encode` folds. -/
theorem encoderComputesEncode : Obligations.EncoderComputesEncode := by
  intro d rest s hs hp hin
  obtain ⟨t, ht, htin, ⟨hfinal, hout, herr⟩, hst⟩ :=
    runFor_seqEvents d rest s .idle hs (encAbs_of_idle _ hp) hin
  rw [encTrace_seqEvents_final] at hfinal
  refine ⟨t, ht, idle_of_encAbs hfinal, htin, ?_⟩
  rw [encTrace_seqEvents_statuses] at herr
  by_cases hd : d = []
  · subst hd
    have hnone : (encTrace s.cfg.compatZeroRuns .idle (seqEvents [])).records = [] := rfl
    simp [hout, herr, hst, encErrEmpty, hnone]
  · rw [encodeSeq_of_ne_nil _ hd]
    simp [hout, herr, hst, encDone, hd]

/-- With nothing waiting an idle encoder keeps its flag. -/
theorem runFor_err_of_nothing_waiting (n : Nat) (s t : State) (hr : NoResetFor n s) (hp : s.enc.ph = .idle)
    (hin : s.enc.input = []) (h : runFor n s = .next t) : t.enc.err = s.enc.err := by
  obtain ⟨k, -, -, -, -, herr⟩ := encoderIsAFunctionOfAcceptedEvents n s t .idle hr (encAbs_of_idle _ hp) h
  simpa [hin, encTrace] using herr

/-- Settles O46: the two calls one after the other; while the encoder's runs the decoder has nothing to do, and the
other way round. -/
theorem machineRoundTrip : Obligations.MachineRoundTrip := by
  intro d s hd hs ⟨hph, hrem⟩ hout hin hdin
  have hok := encodeSeq_of_ne_nil s.cfg.compatZeroRuns hd
  obtain ⟨t, ht, htph, htin, hcall⟩ := encoderComputesEncode d [] s hs hph (by rw [hin, List.append_nil])
  rw [hok, hout] at hcall
  obtain ⟨htout, -, hterr⟩ := hcall
  obtain ⟨htrem, -, htdout⟩ := runFor_dec_of_nothing_waiting _ s t (noResetFor_of_eagerHost hs _) hrem hdin ht
  have heager : EagerHost { t with dec := { t.dec with input := decBeats (runsEvents t.enc.output) } } :=
    runFor_eagerHost _ s t hs ht
  obtain ⟨v, hv, -, -, hvout, hvdone⟩ :=
    decoderComputesDecode t.enc.output [] _ heager htrem (List.append_nil _).symm
  have hverr := runFor_err_of_nothing_waiting _ _ v (noResetFor_of_eagerHost heager _) htph htin hv
  refine ⟨t, _, v, ht, hv, ?_, hvdone, hverr.trans hterr⟩
  rw [hvout, htdout, htout, List.nil_append, decodeSeq_encTrace_seqEvents]

/-! ## A call without its end -/

/-- The byte a run of data beats leaves in `CUR`: the last one, or what was there. -/
def lastByte (cur : Byte) (ws : List EinWord) : Byte := (ws.getLast?.map einData).getD cur

theorem lastByte_cons (cur : Byte) (w : EinWord) (ws : List EinWord) :
    lastByte cur (w :: ws) = lastByte (einData w) ws := by
  cases h : ws.getLast? <;> simp [lastByte, List.getLast?_cons, h]

/-- A move with only data beats waiting: nothing is strobed, and either nothing is accepted or the byte accepted is in
`CUR` and the phase is RUN. -/
theorem EncMove.of_data {s : State} {e : Encoder} {n : Nat} (m : EncMove s e n)
    (hdata : ∀ w ∈ s.enc.input, einEnd w = false) :
    e.status = none ∧ e.err = s.enc.err ∧
      (e = { s.enc with status := none } ∨
        ∃ w, s.enc.input = w :: e.input ∧ e.ph = .run ∧ e.cur = einData w) := by
  have hno {w : EinWord} (hw : encInBeat s = some w) (he : einEnd w = true) : False := by
    have hmem : w ∈ s.enc.input := by
      rw [encInBeat_head s w hw]
      exact List.mem_cons_self
    simp [hdata w hmem] at he
  cases m with
  | stay => exact ⟨rfl, rfl, .inl rfl⟩
  | first w _ hw | mismatch w _ hw => exact ⟨rfl, rfl, .inr ⟨w, encInBeat_head s w hw, rfl, rfl⟩⟩
  | more w _ hw _ hp hb | overflow w _ hw _ hp hb | unstated w _ hw _ hp hb =>
    exact ⟨rfl, rfl, .inr ⟨w, encInBeat_head s w hw, hp, hb.symm⟩⟩
  | flush _ _ hw he | empty _ _ hw he => exact absurd (hno hw he) id

/-- The encoder after a run over data beats only. -/
structure DataRun (e e' : Encoder) : Prop where
  status : e'.status = none
  err : e'.err = e.err
  run_of_run : e.ph = .run → e'.ph = .run
  run_of_accepted : e'.input ≠ e.input → e'.ph = .run
  accepted : ∃ k, e'.input = e.input.drop k ∧ e'.cur = lastByte e.cur (e.input.take k)

theorem DataRun.refl {e : Encoder} (h : e.status = none) : DataRun e e :=
  ⟨h, rfl, id, fun h => absurd rfl h, 0, rfl, rfl⟩

theorem DataRun.cons {e e₁ e' : Encoder} {w : EinWord} (hin : e.input = w :: e₁.input) (herr : e₁.err = e.err)
    (hrun : e₁.ph = .run) (hcur : e₁.cur = einData w) (h : DataRun e₁ e') : DataRun e e' := by
  have hrun' := h.run_of_run hrun
  obtain ⟨k, hk, hlast⟩ := h.accepted
  refine ⟨h.status, h.err.trans herr, fun _ => hrun', fun _ => hrun', k + 1, ?_, ?_⟩
  · rw [hin, List.drop_succ_cons, hk]
  · rw [hin, List.take_succ_cons, lastByte_cons, ← hcur, hlast]

theorem runFor_dataRun (n : Nat) (s t : State) (hr : NoResetFor n s)
    (hdata : ∀ w ∈ s.enc.input, einEnd w = false) (hst : s.enc.status = none) (h : runFor n s = .next t) :
    DataRun s.enc t.enc := by
  refine runFor_induction (P := fun p => p.rst = false)
    (motive := fun _ s t => (∀ w ∈ s.enc.input, einEnd w = false) → s.enc.status = none → DataRun s.enc t.enc)
    (fun s _ hst => .refl hst) (fun n s u t hr hu ih hdata hst => ?_) n s t hr h hdata hst
  obtain ⟨m, -, -, -⟩ := step_next_move s u hu hr
  obtain ⟨hst', herr, hstay | ⟨w, hw, hrun, hcur⟩⟩ := m.of_data hdata
  · have heq : u.enc = s.enc := by rw [hstay, ← hst]
    rw [heq] at ih
    exact ih hdata hst
  · exact .cons hw herr hrun hcur (ih (fun x hx => hdata x (by rw [hw]; exact .tail w hx)) hst')

/-- Over any run without reset the counter stays in range and no byte is lost. -/
theorem runFor_encAccount (n : Nat) (s t : State) (hr : NoResetFor n s) (hs : CounterInRange s)
    (h : runFor n s = .next t) : CounterInRange t ∧ encAccount t = encAccount s := by
  refine runFor_induction (P := fun p => p.rst = false)
    (motive := fun _ s t => CounterInRange s → CounterInRange t ∧ encAccount t = encAccount s)
    (fun s hs => ⟨hs, rfl⟩) (fun n s u t hr hu ih hs => ?_) n s t hr h hs
  obtain ⟨ht, hacc⟩ := ih (step_counterInRange hs hu)
  exact ⟨ht, hacc.trans (encoderConservesBytes s u hs hr hu)⟩

/-- Settles O47: the run over data beats, and with the counter in range no byte is lost. -/
theorem callWithoutEndIsNeverOver : Obligations.CallWithoutEndIsNeverOver := by
  intro n s t hr hdata hst h
  obtain ⟨hst', herr, hrun, hacc, hk⟩ := runFor_dataRun n s t hr hdata hst h
  refine ⟨hst', herr, hrun, hacc, fun hs => ?_⟩
  obtain ⟨hs', haccount⟩ := runFor_encAccount n s t hr hs h
  exact ⟨hs', haccount, hk⟩

/-! ## A host that refuses (70_reset_and_hazards.md R236) -/

section
variable {s t : State} (hr : s.pins.rst = false) (h : step s = .next t)
include hr h

theorem step_enc_of_refused (hno : s.pins.encOutReady = false) : t.enc = { s.enc with status := none } := by
  obtain ⟨m, -, -, -⟩ := step_next_move s t h hr
  exact m.eq_of_no_transfer (by simp [encTransfer, hno])

theorem step_dec_of_refused (hno : s.pins.decOutReady = false) (hrem : s.dec.rem ≠ 0#8) :
    t.dec = { s.dec with done := false } := by
  obtain ⟨-, m, -, -⟩ := step_next_move s t h hr
  exact m.eq_of_none_enabled (by simp [decTransfer, hrem]) (by simp [decEmits, hno])

end

theorem runFor_enc_of_refused (n : Nat) (s t : State) (hr : RefusesRecordsFor n s) (hst : s.enc.status = none)
    (h : runFor n s = .next t) : t.enc = s.enc := by
  refine runFor_induction (P := fun p => p.rst = false ∧ p.encOutReady = false)
    (motive := fun _ s t => s.enc.status = none → t.enc = s.enc) (fun _ _ => rfl)
    (fun n s u t hp hu ih hst => ?_) n s t hr h hst
  obtain ⟨hr, hno⟩ := hp
  have heq : u.enc = s.enc := by rw [step_enc_of_refused hr hu hno, ← hst]
  exact (ih (heq ▸ hst)).trans heq

theorem runFor_dec_of_refused (n : Nat) (s t : State) (hr : RefusesBytesFor n s) (hrem : s.dec.rem ≠ 0#8)
    (hdone : s.dec.done = false) (h : runFor n s = .next t) : t.dec = s.dec := by
  refine runFor_induction (P := fun p => p.rst = false ∧ p.decOutReady = false)
    (motive := fun _ s t => s.dec.rem ≠ 0#8 → s.dec.done = false → t.dec = s.dec) (fun _ _ _ => rfl)
    (fun n s u t hp hu ih hrem hdone => ?_) n s t hr h hrem hdone
  obtain ⟨hr, hno⟩ := hp
  have heq : u.dec = s.dec := by rw [step_dec_of_refused hr hu hno hrem, ← hdone]
  exact (ih (heq ▸ hrem) (heq ▸ hdone)).trans heq

/-- A decoder inside a run offers `VAL` and accepts nothing (20_memory.md R56). -/
theorem ports_dec_of_rem_ne_zero {s : State} (hr : s.pins.rst = false) (hrem : s.dec.rem ≠ 0#8) :
    (ports s).decOutValid = true ∧ (ports s).decOutData = some s.dec.val ∧ (ports s).decInReady = false := by
  simp [ports, hr, hrem]

theorem ports_encOut {s : State} (hr : s.pins.rst = false) : (ports s).encOut = encOutBeat s := by
  simp [ports, hr]

theorem pins_of_step {s t : State} (h : step s = .next t) : t.pins = nextPins s := by
  obtain ⟨-, hp⟩ := step_cfg_plan h
  rw [State.pins, hp, ← pinsAt_zero, pinsAt_tail]
  rfl

/-- A record offered and refused: the beat it comes from is offered again to an encoder that has not moved. -/
theorem encOutBeat_of_refused {s t : State} {r : Run} (hr : s.pins.rst = false) (h : step s = .next t)
    (hkeep : KeepsEncOffer s) (ho : encOutBeat s = some r) (hno : s.pins.encOutReady = false) :
    encOutBeat t = some r := by
  have henc := step_enc_of_refused hr h hno
  obtain ⟨hcfg, -⟩ := step_cfg_plan h
  cases hw : encInBeat s with
  | none => simp [encOutBeat, hw] at ho
  | some w =>
    have hvalid : (nextPins s).encInValid = true := hkeep (by simp [hw]) (by simp [encTransfer, hno])
    have hw' : encInBeat t = some w := by
      rw [encInBeat, encOffered, pins_of_step h, hvalid, henc, if_pos rfl]
      exact congrArg List.head? (encInBeat_head s w hw)
    simpa [encOutBeat, hw, hw', hcfg, henc, encEmit] using ho

/-- Settles O32: a unit whose output is refused does not move, and its ports are a function of what it holds. -/
theorem outputsHeldUntilTaken : Obligations.OutputsHeldUntilTaken := by
  refine ⟨fun s t h hr hr' hv hno => ?_, fun s t r h hr hr' hkeep ho hno => ?_, fun s p q rest hrst hvalid => ?_,
    fun s hr => by simp [ports_of_reset s hr], runFor_enc_of_refused, fun n s t href hrem hdone h => ?_,
    fun s hnil hrst => ?_⟩
  · have hrem : s.dec.rem ≠ 0#8 := by simpa [ports, hr] using hv
    have hdec := step_dec_of_refused hr h hno hrem
    obtain ⟨-, hdata, -⟩ := ports_dec_of_rem_ne_zero hr hrem
    obtain ⟨hv', hdata', -⟩ := ports_dec_of_rem_ne_zero hr' (by rwa [hdec])
    exact ⟨hv', by rw [hdata', hdata, hdec]⟩
  · rw [ports_encOut hr] at ho
    rw [ports_encOut hr', encOutBeat_of_refused hr h hkeep ho hno]
  · have hbeat : encInBeat { s with plan := rest.cons p } = encInBeat { s with plan := rest.cons q } :=
      congrArg (fun valid : Bool => if valid then s.enc.input.head? else none) hvalid
    have hout : encOutBeat { s with plan := rest.cons p } = encOutBeat { s with plan := rest.cons q } := by
      rw [encOutBeat, encOutBeat, hbeat]
    exact ⟨congrArg₂ (fun (rst : Bool) o => if rst then none else o) hrst hout, by simp [ports, State.pins, hrst]⟩
  · have hdec := runFor_dec_of_refused n s t (fun k hk => href k (by omega)) hrem hdone h
    have hr : t.pins.rst = false := by
      rw [State.pins, ← pinsAt_zero, runFor_pinsAt n s t h 0]
      exact (href (0 + n) (by omega)).1
    rw [← hdec]
    exact ⟨rfl, ports_dec_of_rem_ne_zero hr (by rwa [hdec])⟩
  · have hheld (k : Nat) : s.plan.pinsAt k = s.plan.held := by simp [Plan.pinsAt, hnil]
    refine ⟨fun hno n k _ => ?_, fun hno n k _ => ?_⟩ <;> rw [hheld] <;> exact ⟨hrst, hno⟩

end Sys2Proof.Machine
end

section
/-! PROOF. `encode` on the maximal stretches of its input (42_sequence_functions.md R161): the stretches, the closed
form, and the laws that are read off it. -/

namespace Sys2Proof.Machine

/-! ## The stretches -/

/-- Put `k` equal bytes before a list of maximal stretches: `consStretch` for `k = 1`. -/
def growStretch (v : Byte) (k : Nat) : List Stretch → List Stretch
  | [] => [{ byte := v, size := k }]
  | x :: xs => if x.byte = v then { x with size := x.size + k } :: xs else { byte := v, size := k } :: x :: xs

theorem consStretch_eq_growStretch (b : Byte) (xs : List Stretch) : consStretch b xs = growStretch b 1 xs := by
  cases xs <;> rfl

theorem growStretch_consStretch_same (v : Byte) (k : Nat) (xs : List Stretch) :
    growStretch v k (consStretch v xs) = growStretch v (k + 1) xs := by
  cases xs with
  | nil => simp [consStretch, growStretch, Nat.add_comm]
  | cons x xs => by_cases h : x.byte = v <;> simp [consStretch, growStretch, h, Nat.add_comm, Nat.add_left_comm]

/-- The byte put before a list of stretches heads the first of them. -/
theorem consStretch_eq_cons (b : Byte) (xs : List Stretch) :
    ∃ n ys, 1 ≤ n ∧ consStretch b xs = { byte := b, size := n } :: ys := by
  cases xs with
  | nil => exact ⟨1, [], le_refl 1, rfl⟩
  | cons x xs =>
    by_cases h : x.byte = b
    · exact ⟨x.size + 1, xs, by omega, by simp [consStretch, h]⟩
    · exact ⟨1, x :: xs, le_refl 1, by simp [consStretch, h]⟩

theorem growStretch_consStretch_of_ne {v b : Byte} (h : b ≠ v) (k : Nat) (xs : List Stretch) :
    growStretch v k (consStretch b xs) = { byte := v, size := k } :: consStretch b xs := by
  obtain ⟨n, ys, -, e⟩ := consStretch_eq_cons b xs
  simp [e, growStretch, h]

/-- The bytes a list of stretches stands for. -/
def stretchBytes (xs : List Stretch) : List Byte := xs.flatMap fun x => List.replicate x.size x.byte

theorem stretchBytes_consStretch (b : Byte) (xs : List Stretch) :
    stretchBytes (consStretch b xs) = b :: stretchBytes xs := by
  cases xs with
  | nil => rfl
  | cons x xs => by_cases h : x.byte = b <;> simp [stretchBytes, consStretch, h, List.replicate_succ]

theorem stretchBytes_stretches (d : List Byte) : stretchBytes (stretches d) = d := by
  induction d with
  | nil => rfl
  | cons b d ih => rw [stretches, stretchBytes_consStretch, ih]

theorem one_le_size_of_mem_consStretch {b : Byte} {xs : List Stretch} (h : ∀ x ∈ xs, 1 ≤ x.size) :
    ∀ x ∈ consStretch b xs, 1 ≤ x.size := by
  cases xs with
  | nil => simp [consStretch]
  | cons x xs => by_cases hx : x.byte = b <;> simp_all [consStretch]

theorem one_le_size_of_mem_stretches (d : List Byte) : ∀ x ∈ stretches d, 1 ≤ x.size := by
  induction d with
  | nil => simp [stretches]
  | cons b d ih => exact one_le_size_of_mem_consStretch ih

theorem isChain_consStretch {b : Byte} {xs : List Stretch} (h : xs.IsChain fun x y => x.byte ≠ y.byte) :
    (consStretch b xs).IsChain fun x y => x.byte ≠ y.byte := by
  cases xs with
  | nil => simp [consStretch]
  | cons x xs =>
    by_cases hx : x.byte = b
    · rw [List.isChain_cons] at h
      simpa [consStretch, hx, List.isChain_cons] using h
    · simpa [consStretch, hx, Ne.symm hx] using h

theorem isChain_stretches (d : List Byte) : (stretches d).IsChain fun x y => x.byte ≠ y.byte := by
  induction d with
  | nil => exact .nil
  | cons b d ih => exact isChain_consStretch ih

theorem length_eq_sum_size (d : List Byte) : d.length = ((stretches d).map Stretch.size).sum := by
  conv_lhs => rw [← stretchBytes_stretches d, stretchBytes, List.length_flatMap]
  simp

theorem stretches_replicate (v : Byte) (n : Nat) :
    stretches (List.replicate (n + 1) v) = [{ byte := v, size := n + 1 }] := by
  induction n with
  | zero => rfl
  | succ n ih => rw [List.replicate_succ, stretches, ih]; simp [consStretch]

/-- Without equal neighbours every stretch is one byte. -/
theorem stretches_of_isChain {d : List Byte} (h : d.IsChain (· ≠ ·)) :
    stretches d = d.map fun b => { byte := b, size := 1 } := by
  induction d with
  | nil => rfl
  | cons b d ih =>
    obtain ⟨hb, hd⟩ := List.isChain_cons.1 h
    rw [stretches, ih hd]
    cases d with
    | nil => rfl
    | cons c d =>
      have hne : c ≠ b := (hb c rfl).symm
      simp [consStretch, hne]

/-! ## The pieces -/

theorem toNat_ofNat_mod_255 (n : Nat) : (BitVec.ofNat 8 (n % 255)).toNat = n % 255 := by
  rw [BitVec.toNat_ofNat]
  omega

theorem ofNat_mod_255_eq_zero_iff (n : Nat) : BitVec.ofNat 8 (n % 255) = 0#8 ↔ n % 255 = 0 := by
  rw [← BitVec.toNat_inj, toNat_ofNat_mod_255]
  rfl

theorem ofNat_mod_255_ne_255 (n : Nat) : BitVec.ofNat 8 (n % 255) ≠ 255#8 := by
  intro h
  have hn : n % 255 = 255 := by rw [← toNat_ofNat_mod_255, h]; rfl
  omega

section
variable (c : Bool) (v : Byte)

/-- Fewer than 255 bytes are one gated record. -/
theorem piece_of_lt (k : Fin 255) : piece c { byte := v, size := k.val } = (gatedRecord c v k).toList := by
  have hdiv : k.val / 255 = 0 := Nat.div_eq_of_lt k.isLt
  have hmod : k.val % 255 = k.val := Nat.mod_eq_of_lt k.isLt
  by_cases h : k.val = 0 <;> cases c <;> simp [piece, gatedRecord, hdiv, hmod, h]

/-- 255 more bytes are one more full record. -/
theorem piece_add_255 (n : Nat) :
    piece c { byte := v, size := n + 255 } = { value := v, length := 255#8 } :: piece c { byte := v, size := n } := by
  simp [piece, List.replicate_succ]

end

theorem piece_of_pos_of_lt (c : Bool) {x : Stretch} (h : 1 ≤ x.size) (h' : x.size < 255) :
    piece c x = [{ value := x.byte, length := BitVec.ofNat 8 x.size }] := by
  have hopen : x.size ≠ 0 := by omega
  rw [piece_of_lt c x.byte ⟨x.size, h'⟩]
  simp [gatedRecord, hopen]

theorem value_of_mem_piece {c : Bool} {x : Stretch} {r : Run} (h : r ∈ piece c x) : r.value = x.byte := by
  rw [piece, List.mem_append] at h
  rcases h with h | h
  · rw [List.eq_of_mem_replicate h]
  · split at h
    · simp at h
    · rw [List.mem_singleton.1 h]

theorem length_piece (c : Bool) (x : Stretch) :
    (piece c x).length = if c then x.size / 255 + 1 else (x.size + 254) / 255 := by
  cases c with
  | true => simp [piece]
  | false => by_cases h : x.size % 255 = 0 <;> simp [piece, h] <;> omega

theorem piece_ne_nil (c : Bool) {x : Stretch} (h : 1 ≤ x.size) : piece c x ≠ [] := by
  rw [← List.length_pos_iff, length_piece]
  split <;> omega

theorem length_piece_le (c : Bool) {x : Stretch} (h : 1 ≤ x.size) : (piece c x).length ≤ x.size := by
  rw [length_piece]
  split <;> omega

/-! ## The closed form -/

/-- The record of 255 bytes goes out, and its stretch goes on from none. -/
theorem flatMap_piece_growStretch_255 (c : Bool) (v : Byte) (xs : List Stretch) :
    (growStretch v 255 xs).flatMap (piece c) =
      { value := v, length := 255#8 } :: (growStretch v 0 xs).flatMap (piece c) := by
  have hfull : piece c { byte := v, size := 255 } = _ := piece_add_255 c v 0
  cases xs with
  | nil => simp [growStretch, hfull]
  | cons x xs => by_cases hx : x.byte = v <;> simp [growStretch, hx, piece_add_255, hfull]

/-- The records from RUN on: the bytes pending join the first stretch of what comes. -/
theorem encTrace_run_eq_pieces (c : Bool) (v : Byte) (k : Fin 255) (d : List Byte) :
    (encTrace c (.run v k) (seqEvents d)).records = (growStretch v k.val (stretches d)).flatMap (piece c) := by
  induction d generalizing v k with
  | nil => simp [seqEvents_nil, encTrace, encStep, stretches, growStretch, piece_of_lt]
  | cons b d ih =>
    rw [seqEvents_cons, stretches]
    rcases encStep_run_byte_cases c v k b with ⟨rfl, h, e⟩ | ⟨rfl, h254, e⟩ | ⟨hb, e⟩ <;>
      simp only [encTrace, e, ih]
    · simp [growStretch_consStretch_same]
    · simp [growStretch_consStretch_same, h254, flatMap_piece_growStretch_255]
    · rw [growStretch_consStretch_of_ne hb, consStretch_eq_growStretch, List.flatMap_cons, piece_of_lt]
      rfl

theorem encodeSeq_eq_pieces (c : Bool) {d : List Byte} (hd : d ≠ []) :
    encodeSeq c d = .ok ((stretches d).flatMap (piece c)) := by
  obtain ⟨b, d, rfl⟩ := List.exists_cons_of_ne_nil hd
  rw [encodeSeq_of_ne_nil c hd, seqEvents_cons, encTrace_idle_byte, encTrace_run_eq_pieces, stretches,
    consStretch_eq_growStretch]
  rfl

/-- Settles O50: the stretches by induction on the bytes, and the records of a call as their pieces. -/
theorem encodeIsPiecewise : Obligations.EncodeIsPiecewise :=
  ⟨fun d => ⟨stretchBytes_stretches d, one_le_size_of_mem_stretches d, isChain_stretches d⟩,
    fun c _ hd => encodeSeq_eq_pieces c hd⟩

/-- Where `encode` answers, its answer is the closed form. -/
theorem eq_pieces_of_encodeSeq {c : Bool} {d : List Byte} {rs : List Run} (h : encodeSeq c d = .ok rs) :
    rs = (stretches d).flatMap (piece c) := by
  have hd : d ≠ [] := by
    rintro rfl
    simp at h
  rw [encodeSeq_eq_pieces c hd, Except.ok.injEq] at h
  exact h.symm

/-! ## Short stretches, single bytes -/

/-- Settles O51: every piece is one record, the same in both modes. -/
theorem restrictedRoundTrip : Obligations.RestrictedRoundTrip := by
  intro d hd hshort
  have hone := one_le_size_of_mem_stretches d
  have hrs (c : Bool) : encodeSeq c d =
      .ok ((stretches d).map fun x => { value := x.byte, length := BitVec.ofNat 8 x.size }) := by
    rw [encodeSeq_eq_pieces c hd, List.map_eq_flatMap]
    exact congrArg _ (List.flatMap_congr fun x hx => piece_of_pos_of_lt c (hone x hx) (hshort x hx))
  refine ⟨_, hrs true, hrs false, decodeSeq_of_encodeSeq (hrs true), fun r hr => ?_, ?_⟩
  · obtain ⟨x, hx, rfl⟩ := List.mem_map.1 hr
    have h1 := hone x hx
    have h2 := hshort x hx
    rw [BitVec.toNat_ofNat]
    omega
  · rw [List.isChain_map]
    exact isChain_stretches d

theorem encodeSeq_of_isChain (c : Bool) {d : List Byte} (hd : d ≠ []) (h : d.IsChain (· ≠ ·)) :
    encodeSeq c d = .ok (d.map fun b => { value := b, length := 1#8 }) := by
  rw [encodeSeq_eq_pieces c hd, stretches_of_isChain h, List.flatMap_map, List.map_eq_flatMap]
  exact congrArg _ (List.flatMap_congr fun b _ => piece_of_pos_of_lt c (le_refl 1) (by simp))

/-! ## How many runs -/

theorem length_encodeSeq {c : Bool} {d : List Byte} {rs : List Run} (h : encodeSeq c d = .ok rs) :
    rs.length = ((stretches d).map fun x => (piece c x).length).sum := by
  rw [eq_pieces_of_encodeSeq h, List.length_flatMap]

theorem length_encodeSeq_le {c : Bool} {d : List Byte} {rs : List Run} (h : encodeSeq c d = .ok rs) :
    rs.length ≤ d.length := by
  rw [length_encodeSeq h, length_eq_sum_size d]
  exact List.sum_le_sum fun x hx => length_piece_le c (one_le_size_of_mem_stretches d x hx)

/-- Settles O52: a piece has at most as many records as its stretch has bytes. -/
theorem runCountAtMostLength : Obligations.RunCountAtMostLength :=
  ⟨fun _ _ _ h => length_encodeSeq_le h, fun c _ hd h => ⟨_, encodeSeq_of_isChain c hd h, List.length_map _⟩⟩

/-- Settles O55: single bytes, and two container bytes a run. -/
theorem alternatingInputExpands : Obligations.AlternatingInputExpands := by
  refine ⟨fun c d hd h => encodeSeq_of_isChain c hd h, fun c d rs h => ⟨length_ser rs, ?_⟩⟩
  rw [length_ser]
  exact Nat.mul_le_mul_left 2 (length_encodeSeq_le h)

theorem encodeSeq_replicate (c : Bool) (v : Byte) {n : Nat} (h : 1 ≤ n) :
    encodeSeq c (List.replicate n v) = .ok (piece c { byte := v, size := n }) := by
  obtain ⟨m, rfl⟩ := Nat.exists_eq_add_of_le' h
  rw [encodeSeq_eq_pieces c (by simp), stretches_replicate, List.flatMap_singleton]

/-- Settles O53: the count of each piece, alone for a constant input and summed for any. -/
theorem exactRunCounts : Obligations.ExactRunCounts := by
  refine ⟨fun c v n h => ⟨_, encodeSeq_replicate c v h, length_piece c _, ?_⟩, fun c d rs h => ?_,
    fun c v => ⟨_, encodeSeq_replicate c v (by omega), ?_⟩⟩
  · rw [length_piece]
    dsimp only
    split <;> omega
  · simp only [length_encodeSeq h, length_piece]
  · rw [length_piece]
    dsimp only
    split <;> omega

/-! ## Lengths 255 and 0 -/

theorem filter_piece (x : Stretch) : (piece true x).filter (fun r => r.length != 0#8) = piece false x := by
  have hz := ofNat_mod_255_eq_zero_iff x.size
  by_cases h : x.size % 255 = 0 <;> simp [piece, h, hz]

theorem countP_255_piece (c : Bool) (x : Stretch) :
    (piece c x).countP (fun r => r.length == 255#8) = x.size / 255 := by
  have hne := ofNat_mod_255_ne_255 x.size
  by_cases h : x.size % 255 = 0 <;> cases c <;> simp [piece, h, hne, List.countP_replicate]

theorem countP_zero_piece (x : Stretch) :
    (piece true x).countP (fun r => r.length == 0#8) = if x.size % 255 == 0 then 1 else 0 := by
  have hz := ofNat_mod_255_eq_zero_iff x.size
  by_cases h : x.size % 255 = 0 <;> simp [piece, h, hz, List.countP_replicate]

theorem countP_255_pieces (c : Bool) (xs : List Stretch) :
    (xs.flatMap (piece c)).countP (fun r => r.length == 255#8) = (xs.map fun x => x.size / 255).sum := by
  rw [List.countP_flatMap]
  exact congrArg List.sum (List.map_congr_left fun x _ => countP_255_piece c x)

theorem countP_zero_pieces (xs : List Stretch) :
    (xs.flatMap (piece true)).countP (fun r => r.length == 0#8) = xs.countP fun x => x.size % 255 == 0 := by
  induction xs with
  | nil => rfl
  | cons x xs ih => rw [List.flatMap_cons, List.countP_append, countP_zero_piece, ih, List.countP_cons, Nat.add_comm]

/-- Settles O56: each clause is that of a piece; the modes agree where no record of length 0 is dropped. -/
theorem suppressDropsZeroRecords : Obligations.SuppressDropsZeroRecords := by
  intro d rc rs hc hs
  obtain rfl := eq_pieces_of_encodeSeq hc
  obtain rfl := eq_pieces_of_encodeSeq hs
  have hfilter : (stretches d).flatMap (piece false) =
      ((stretches d).flatMap (piece true)).filter fun r => r.length != 0#8 := by
    rw [List.filter_flatMap]
    exact List.flatMap_congr fun x _ => (filter_piece x).symm
  have hzero := countP_zero_pieces (stretches d)
  refine ⟨hfilter, fun r hr => ?_, countP_255_pieces true _, countP_255_pieces false _, hzero, ?_⟩
  · rw [hfilter, List.mem_filter] at hr
    have hne : r.length ≠ 0#8 := by simpa using hr.2
    have hpos : r.length.toNat ≠ 0 := fun h => hne (BitVec.eq_of_toNat_eq h)
    omega
  · rw [hfilter, eq_comm, List.filter_eq_self]
    calc (∀ r ∈ (stretches d).flatMap (piece true), (r.length != 0#8) = true)
        ↔ ((stretches d).flatMap (piece true)).countP (fun r => r.length == 0#8) = 0 := by simp [List.countP_eq_zero]
      _ ↔ ∀ x ∈ stretches d, x.size % 255 ≠ 0 := by rw [hzero]; simp [List.countP_eq_zero]

/-! ## Neighbours -/

/-- Within a piece only the last record may be short of 255. -/
theorem isChain_piece (c : Bool) (x : Stretch) :
    (piece c x).IsChain fun r q => r.value = q.value → r.length = 255#8 := by
  rw [piece, List.isChain_append]
  refine ⟨List.isChain_replicate_of_rel _ fun _ => rfl, ?_, fun r hr q _ _ => ?_⟩
  · split <;> simp
  · rw [List.eq_of_mem_replicate (List.mem_of_mem_getLast? hr)]

/-- Settles O57: neighbours in one piece, or the last of a piece and the first of the next, whose bytes differ. -/
theorem equalNeighboursOnlyAfterOverflow : Obligations.EqualNeighboursOnlyAfterOverflow := by
  intro c d rs h
  have hne : [] ∉ (stretches d).map (piece c) := by
    intro hnil
    obtain ⟨x, hx, hpiece⟩ := List.mem_map.1 hnil
    exact piece_ne_nil c (one_le_size_of_mem_stretches d x hx) hpiece
  rw [eq_pieces_of_encodeSeq h, List.flatMap_def, List.isChain_flatten hne, List.isChain_map]
  refine ⟨fun l hl => ?_, (isChain_stretches d).imp fun x y hxy r hr q hq heq => ?_⟩
  · obtain ⟨x, -, rfl⟩ := List.mem_map.1 hl
    exact isChain_piece c x
  · rw [value_of_mem_piece (List.mem_of_mem_getLast? hr), value_of_mem_piece (List.mem_of_mem_head? hq)] at heq
    exact absurd heq hxy

/-! ## Concatenation -/

theorem encStep_byte_next (c : Bool) (a : EncState) (b : Byte) : ∃ k, (encStep c a (.byte b)).next = .run b k := by
  cases a with
  | idle => exact ⟨1, rfl⟩
  | run cur k =>
    rcases encStep_run_byte_cases c cur k b with ⟨rfl, _, e⟩ | ⟨rfl, _, e⟩ | ⟨_, e⟩ <;> simp [e]

/-- In compat mode a call ends with the record of its last byte, whose length is a count and so is not 255. -/
theorem getLast?_encTrace_run (v : Byte) (k : Fin 255) (d : List Byte) :
    ∃ n, n ≠ 255#8 ∧ (encTrace true (.run v k) (seqEvents d)).records.getLast? =
      some { value := d.getLast?.getD v, length := n } := by
  induction d generalizing v k with
  | nil =>
    refine ⟨BitVec.ofNat 8 k.val, ?_, by simp [seqEvents_nil, encTrace, encStep, gatedRecord]⟩
    rw [← Nat.mod_eq_of_lt k.isLt]
    exact ofNat_mod_255_ne_255 _
  | cons b d ih =>
    obtain ⟨k', e⟩ := encStep_byte_next true (.run v k) b
    obtain ⟨n, hn, hlast⟩ := ih b k'
    refine ⟨n, hn, ?_⟩
    simp [seqEvents_cons, encTrace, e, List.getLast?_append, hlast, List.getLast?_cons]

theorem getLast?_of_encodeSeq {d : List Byte} {rs : List Run} (h : encodeSeq true d = .ok rs) :
    ∃ r, rs.getLast? = some r ∧ r.length ≠ 255#8 ∧ d.getLast? = some r.value := by
  cases d with
  | nil => simp at h
  | cons b d =>
    rw [encodeSeq_of_ne_nil true (by simp), Except.ok.injEq, seqEvents_cons, encTrace_idle_byte] at h
    obtain ⟨n, hn, hlast⟩ := getLast?_encTrace_run b 1 d
    exact ⟨_, h ▸ hlast, hn, List.getLast?_cons⟩

theorem head?_of_encodeSeq {c : Bool} {d : List Byte} {rs : List Run} (h : encodeSeq c d = .ok rs) :
    ∃ r, rs.head? = some r ∧ d.head? = some r.value := by
  cases d with
  | nil => simp at h
  | cons b d =>
    obtain ⟨n, xs, hn, e⟩ := consStretch_eq_cons b (stretches d)
    rw [eq_pieces_of_encodeSeq h, stretches, e, List.flatMap_cons]
    cases hp : piece c { byte := b, size := n } with
    | nil => exact absurd hp (piece_ne_nil c hn)
    | cons r rs =>
      have hr : r.value = b := value_of_mem_piece (x := { byte := b, size := n }) (hp ▸ List.mem_cons_self)
      exact ⟨r, rfl, congrArg some hr.symm⟩

/-- Settles O58: where equal bytes meet, the records that would meet share a value, and only a record of length 255 may
stand before another of its value. -/
theorem concatenatedEncodingsDecode : Obligations.ConcatenatedEncodingsDecode := by
  refine ⟨decodeSeq_append, fun c d1 d2 r1 r2 h1 h2 => ?_, fun d1 d2 r1 r2 h1 h2 hmeet h => ?_, fun v => ?_⟩
  · rw [decodeSeq_append, decodeSeq_of_encodeSeq h1, decodeSeq_of_encodeSeq h2]
  · obtain ⟨r, hr, hne, hlast⟩ := getLast?_of_encodeSeq h1
    obtain ⟨q, hq, hhead⟩ := head?_of_encodeSeq h2
    have hvalue : r.value = q.value := by
      rw [hlast, hhead] at hmeet
      exact Option.some.inj hmeet
    obtain ⟨-, -, hchain⟩ := List.isChain_append.1 (equalNeighboursOnlyAfterOverflow true (d1 ++ d2) (r1 ++ r2) h)
    exact hne (hchain r hr q hq hvalue)
  · rw [← List.replicate_succ', encodeSeq_replicate false v (by omega), piece_add_255 false v 1,
      piece_of_pos_of_lt false (le_refl 1) (by simp)]

/-! ## The container (20_memory.md R60, R70) -/

theorem deser_ser (rs : List Run) : deser (ser rs) = some rs := by
  induction rs with
  | nil => rfl
  | cons r rs ih => simp [ser, deser, ih]

theorem ser_of_deser (bs : List Byte) (rs : List Run) (h : deser bs = some rs) : ser rs = bs := by
  induction bs using deser.induct generalizing rs with
  | case1 =>
    obtain rfl : [] = rs := Option.some.inj h
    rfl
  | case2 b => simp [deser] at h
  | case3 v l bs ih =>
    obtain ⟨qs, hqs, rfl⟩ := Option.map_eq_some_iff.1 h
    rw [ser, ih qs hqs]

theorem isSome_deser (bs : List Byte) : (deser bs).isSome = isContainer bs := by
  induction bs using deser.induct with
  | case1 => rfl
  | case2 b => rfl
  | case3 v l bs ih =>
    simp [deser, ih, isContainer]
    omega

/-- Settles O60: the container loses nothing of the runs, and `decode` of them is the input. -/
theorem containerRoundTrip : Obligations.ContainerRoundTrip := by
  refine ⟨deser_ser, ser_of_deser, isSome_deser, fun c d hd => ?_⟩
  obtain ⟨rs, hrs, hdec⟩ := decodeOfEncodeSeq c d hd
  exact ⟨rs, hrs, by rw [deser_ser, Option.map_some, hdec]⟩

end Sys2Proof.Machine
end
